-- ==== Sys2Proof/Word.lean ====
section
/-! DEFINITION. The word types and the two small enumerations of the engine (00_scope.md R13; 10_state.md R18, R19,
R22, R24). Everything is an unsigned bit vector of a stated width; there is no signed quantity. -/

namespace Sys2Proof

/-- A byte, `u8` (R13). -/
abbrev Byte := BitVec 8

/-- A 32-bit word, `u32` (R13). -/
abbrev Word := BitVec 32

/-- A byte offset into the block buffer, 0..63, 6 bits (20_memory.md R37, R38). An offset outside the buffer
cannot be written down. -/
abbrev Offset := BitVec 6

/-- An ordered 4-tuple of words, labelled A, B, C, D as the source labels them (R18): the shape of both `H[0..3]` and
`W[0..3]`, with index 0 the first field. -/
@[ext]
structure Quad where
  a : Word
  b : Word
  c : Word
  d : Word
  deriving DecidableEq, Repr

/-- The phase `PH` (R22): the five values a reachable engine can hold. The codes 5 to 7 are unrepresentable (R72). -/
inductive Phase where
  /-- no operation in progress, a command can be accepted -/
  | idle
  /-- a block is being compressed, `J` rounds done -/
  | round
  /-- the 64 rounds are done, the add-back is due -/
  | fold
  /-- the first tail block is folded, the second must be built -/
  | pad2
  /-- the last tail block is folded, the digest is due -/
  | emit
  deriving DecidableEq, Repr

/-- `FIN` (R24): why the current block is being compressed. The code 3 is unrepresentable (R72). -/
inductive FinCode where
  /-- a data block filled by `PUSH` -/
  | data
  /-- the first of two tail blocks -/
  | tailMore
  /-- the last tail block -/
  | tailLast
  deriving DecidableEq, Repr

end Sys2Proof
end

