-- ==== Sys2Proof/Config.lean ====
section
/-! DEFINITION. The parameters of the engine: those the source fixes (00_scope.md R8) and those the spec fixes as its
own choice (R9). None is a run-time choice, and no value of this hardware is left open, so there is no free value.
The three constant tables are in Machine/Tables.lean. -/

namespace Sys2Proof.Config

/-- R8 `BLOCK_BYTES`. -/
abbrev blockBytes : Nat := 64

/-- R8 `DIGEST_BYTES`. -/
abbrev digestBytes : Nat := 16

/-- R8 `ROUNDS`. -/
abbrev rounds : Nat := 64

/-- R8 `QUARTILE_ROUNDS`. -/
abbrev quartileRounds : Nat := 16

/-- R8 `BLOCK_WORDS`. -/
abbrev blockWords : Nat := 16

/-- R8 `LEN_FIELD_BYTES`. -/
abbrev lenFieldBytes : Nat := 8

/-- R9 `CNT_BITS`. -/
abbrev cntBits : Nat := 64

/-- R9 `CMD_BITS`. -/
abbrev cmdBits : Nat := 10

end Sys2Proof.Config
end

