-- ==== Sys2Proof/Syntax.lean ====
section
/-! DEFINITION. The instruction set: one constructor per row of spec/opcode_table.json. -/

namespace Sys2Proof

/-- Everything the engine can be said to do in a step or as part of one. Commands are accepted from the port (R60), micro-steps are
selected by the phase (R63, R64), actions are parts of other steps (R71). -/
inductive Instr where
  /-- `NOP`, op 00 (R108) -/
  | nop
  /-- `PUSH b`, op 01, with `b = cmd[7:0]` (R61, R110) -/
  | push (b : Byte)
  /-- `FINAL`, op 10 (R111) -/
  | final
  /-- `INIT`, op 11 (R109) -/
  | init
  /-- `IDLE`, the step of phase 000: accept a presented command or stay (R58) -/
  | idle
  /-- `RND0`, the round step of quartile 0 (R86); its operands are implicit -/
  | rnd0
  /-- `RND1`, the round step of quartile 1 (R87) -/
  | rnd1
  /-- `RND2`, the round step of quartile 2 (R88) -/
  | rnd2
  /-- `RND3`, the round step of quartile 3 (R89) -/
  | rnd3
  /-- `FOLD`, the add-back (R90) -/
  | fold
  /-- `PAD2`, the second tail block (R103) -/
  | pad2
  /-- `EMIT`, the delivery of the digest (R112) -/
  | emit
  /-- `START(fin)`, the action that begins a compression (R85); `fin` is no encoded field -/
  | start (fin : FinCode)
  /-- `PAD1`, the action that builds the first tail block (R102) -/
  | pad1
  deriving DecidableEq, Repr

end Sys2Proof
end

