-- ==== Sys2Proof/WellFormed.lean ====
section
/-! DEFINITION. Which instructions can be selected on their own. Every operand of Instr is legal at every value of its
type (R61: "all 256 values are legal"; R85: `fin` is one of three), so the one check is the table's own: the ACTION
rows have "no bit pattern of their own" and "are not to be used for decoding" (R71). -/

namespace Sys2Proof

/-- The check: the instruction has a bit pattern of its own, over the command word or over the phase. -/
def Instr.wf : Instr → Bool
  | .nop | .push _ | .final | .init => true
  | .idle | .fold | .pad2 | .emit => true
  | .rnd0 | .rnd1 | .rnd2 | .rnd3 => true
  | .start _ => false
  | .pad1 => false

end Sys2Proof
end

