-- ==== Sys2Proof/Decode.lean ====
section
/-! DEFINITION. Decoding and encoding. The spec has three formats (30_encoding.md R59, R63, R64, R71): CMD over the
10-bit command word, PHASE over `PH[2:0]`, ROUND over `{PH[2:0], J[5:0]}`. The command decoder is total (R62). -/

namespace Sys2Proof

/-! ## The command word -/

/-- The four commands of the port (R60). -/
inductive Command where
  | nop
  | push (b : Byte)
  | final
  | init
  deriving DecidableEq, Repr

/-- The instruction a command stands for. -/
def Command.instr : Command → Instr
  | .nop => .nop
  | .push b => .push b
  | .final => .final
  | .init => .init

/-- R59: `cmd[9:8]`. -/
def cmdOp (w : BitVec 10) : BitVec 2 := w.extractLsb' 8 2

/-- R59, R61: `cmd[7:0]`, the byte of `PUSH`; the other operations ignore it. -/
def cmdByte (w : BitVec 10) : Byte := w.extractLsb' 0 8

/-- R60, R62: every 10-bit word is exactly one of the four commands. -/
def decodeCmd (w : BitVec 10) : Command :=
  if cmdOp w = 0 then .nop
  else if cmdOp w = 1 then .push (cmdByte w)
  else if cmdOp w = 2 then .final
  else .init

/-- R62, R67: the canonical word of a command, zeros in an ignored field. -/
def encodeCmd : Command → BitVec 10
  | .nop => 0x000
  | .push b => 1#2 ++ b
  | .final => 0x200
  | .init => 0x300

/-! ## The phase and the quartile -/

/-- R63: the code of a phase. -/
def Phase.code : Phase → BitVec 3
  | .idle => 0
  | .round => 1
  | .fold => 2
  | .pad2 => 3
  | .emit => 4

/-- R63, R72: the phase of a code; none for the unreachable codes 5, 6, 7. -/
def Phase.ofCode (v : BitVec 3) : Option Phase :=
  if v = 0 then some .idle
  else if v = 1 then some .round
  else if v = 2 then some .fold
  else if v = 3 then some .pad2
  else if v = 4 then some .emit
  else none

/-- R65: the code of `FIN`. -/
def FinCode.code : FinCode → BitVec 2
  | .data => 0
  | .tailMore => 1
  | .tailLast => 2

/-- R23, R64: the quartile of round `j`, `J[5:4]`. -/
def quartile (j : BitVec 6) : BitVec 2 := j.extractLsb' 4 2

/-- R64: the round step of a quartile. -/
def roundInstr (q : BitVec 2) : Instr :=
  if q = 0 then .rnd0
  else if q = 1 then .rnd1
  else if q = 2 then .rnd2
  else .rnd3

/-- R63, R64: the step the engine performs in phase `ph` at round index `j`. -/
def selectStep (ph : Phase) (j : BitVec 6) : Instr :=
  match ph with
  | .idle => .idle
  | .round => roundInstr (quartile j)
  | .fold => .fold
  | .pad2 => .pad2
  | .emit => .emit

/-! ## The three formats of the opcode table -/

/-- A bit pattern in one of the three formats of R71. -/
inductive TableWord where
  /-- format CMD, over `cmd[9:0]` -/
  | command (w : BitVec 10)
  /-- format PHASE, over `PH[2:0]` -/
  | phase (ph : BitVec 3)
  /-- format ROUND, over `{PH[2:0], J[5:0]}` -/
  | round (v : BitVec 9)
  deriving DecidableEq, Repr

/-- Why a pattern selects nothing. No command word is ever rejected. -/
inductive DecodeError where
  /-- `PH` in 5, 6, 7 (R72) -/
  | unreachablePhase
  /-- `PH` = 001 in format PHASE: a round is selected by `J` as well (R64) -/
  | roundNeedsIndex
  /-- format ROUND with `PH` other than 001 (R64) -/
  | notARound
  deriving DecidableEq, Repr

/-- The decoder (R60, R63, R64). In format ROUND the bits `J[3:0]` are no operand of the step: it reads `J` itself. -/
def decode : TableWord → Except DecodeError Instr
  | .command w => .ok (decodeCmd w).instr
  | .phase v =>
    match Phase.ofCode v with
    | none => .error .unreachablePhase
    | some .round => .error .roundNeedsIndex
    | some .idle => .ok (selectStep .idle 0)
    | some .fold => .ok (selectStep .fold 0)
    | some .pad2 => .ok (selectStep .pad2 0)
    | some .emit => .ok (selectStep .emit 0)
  | .round v =>
    if v.extractLsb' 6 3 = 1 then .ok (selectStep .round (v.extractLsb' 0 6))
    else .error .notARound

/-- R64: the ROUND pattern of quartile `q` at the low index bits `jl = J[3:0]`. -/
def roundWord (q : BitVec 2) (jl : BitVec 4) : BitVec 9 := 1#3 ++ q ++ jl

/-- The encoder: the pattern of a well-formed instruction, canonical where bits are ignored or are no operand; none for
an action (R71). -/
def encode : Instr → Option TableWord
  | .nop => some (.command (encodeCmd .nop))
  | .push b => some (.command (encodeCmd (.push b)))
  | .final => some (.command (encodeCmd .final))
  | .init => some (.command (encodeCmd .init))
  | .idle => some (.phase 0)
  | .rnd0 => some (.round (roundWord 0 0))
  | .rnd1 => some (.round (roundWord 1 0))
  | .rnd2 => some (.round (roundWord 2 0))
  | .rnd3 => some (.round (roundWord 3 0))
  | .fold => some (.phase 2)
  | .pad2 => some (.phase 3)
  | .emit => some (.phase 4)
  | .start _ => none
  | .pad1 => none

/-! ## The opcode table as data -/

/-- The format of a row (R71). -/
inductive Format where
  | cmd
  | phase
  | round
  deriving DecidableEq, Repr

/-- A row of spec/opcode_table.json that has a bit pattern: its mnemonic, format, match and mask. -/
structure Row where
  mnemonic : String
  format : Format
  pattern : Nat
  mask : Nat
  deriving DecidableEq, Repr

/-- The twelve rows with a bit pattern, as the table has them (R60, R63, R64, R71). -/
def opcodeRows : List Row :=
  [⟨"NOP", .cmd, 0x000, 0x300⟩, ⟨"PUSH", .cmd, 0x100, 0x300⟩, ⟨"FINAL", .cmd, 0x200, 0x300⟩, ⟨"INIT", .cmd, 0x300, 0x300⟩] ++
  [⟨"IDLE", .phase, 0x0, 0x7⟩, ⟨"FOLD", .phase, 0x2, 0x7⟩, ⟨"PAD2", .phase, 0x3, 0x7⟩, ⟨"EMIT", .phase, 0x4, 0x7⟩] ++
  [⟨"RND0", .round, 0x040, 0x1f0⟩, ⟨"RND1", .round, 0x050, 0x1f0⟩, ⟨"RND2", .round, 0x060, 0x1f0⟩, ⟨"RND3", .round, 0x070, 0x1f0⟩]

/-- A pattern matches a row when the formats agree and the masked bits are the row's. -/
def Row.matchesWord (r : Row) : TableWord → Bool
  | .command w => r.format == .cmd && (w.toNat &&& r.mask) == r.pattern
  | .phase v => r.format == .phase && (v.toNat &&& r.mask) == r.pattern
  | .round v => r.format == .round && (v.toNat &&& r.mask) == r.pattern

/-- The mnemonic of an instruction's row. -/
def Instr.mnemonic : Instr → String
  | .nop => "NOP"
  | .push _ => "PUSH"
  | .final => "FINAL"
  | .init => "INIT"
  | .idle => "IDLE"
  | .rnd0 => "RND0"
  | .rnd1 => "RND1"
  | .rnd2 => "RND2"
  | .rnd3 => "RND3"
  | .fold => "FOLD"
  | .pad2 => "PAD2"
  | .emit => "EMIT"
  | .start _ => "START"
  | .pad1 => "PAD1"

/-! ## Assembler listing (R67) -/

/-- One hexadecimal digit. -/
def hexDigit (n : Nat) : String :=
  if n = 10 then "a" else if n = 11 then "b" else if n = 12 then "c" else if n = 13 then "d"
  else if n = 14 then "e" else if n = 15 then "f" else Nat.repr n

/-- R67: the 10-bit word of a line, written as three hex digits. -/
def Command.listingWord (c : Command) : String :=
  let n := (encodeCmd c).toNat
  "0x" ++ hexDigit (n / 256 % 16) ++ hexDigit (n / 16 % 16) ++ hexDigit (n % 16)

/-- R67: the text of a line, mnemonic first, the operand in hex. -/
def Command.text : Command → String
  | .nop => "NOP"
  | .push b => "PUSH 0x" ++ hexDigit (b.toNat / 16) ++ hexDigit (b.toNat % 16)
  | .final => "FINAL"
  | .init => "INIT"

/-! ## The numbered words of the table, for the host -/

/-- The pattern a table row's number `w` of `nbits` bits stands for. The table's widths are 10 (CMD), 9 (ROUND) and 3
(PHASE); in whole bytes CMD and ROUND are both 16, where the numbers 0x040 to 0x07f are read as ROUND rows. The command
port reads those same numbers as `NOP` with an ignored field (R62): that is `decodeCmd`, and this choice does not touch
it. DESIGN CHOICE, log entry 3, safe: it only says which row a bare number names. -/
def tableWord (nbits w : Nat) : Option TableWord :=
  if nbits = 3 ∨ nbits = 8 then (if w < 8 then some (.phase (BitVec.ofNat 3 w)) else none)
  else if nbits = 9 then (if w < 512 then some (.round (BitVec.ofNat 9 w)) else none)
  else if nbits = 10 then (if w < 1024 then some (.command (BitVec.ofNat 10 w)) else none)
  else if nbits = 16 then
    (if 0x040 ≤ w ∧ w < 0x080 then some (.round (BitVec.ofNat 9 w))
     else if w < 1024 then some (.command (BitVec.ofNat 10 w)) else none)
  else none

/-- The instruction the decoder reads from a row's number. -/
def decodeTableWord (nbits w : Nat) : Option Instr :=
  match tableWord nbits w with
  | none => none
  | some t => (decode t).toOption

end Sys2Proof
end

