-- ==== Sys2Proof/Machine/Tables.lean ====
section
/-! DEFINITION. The Constant Tables component (40_constant_tables.md): `S`, `K`, `IV`. Read-only, not state (R39, R73). -/

namespace Sys2Proof.Machine

/-- R74: one quartile's sixteen amounts, its 4-cycle four times over. -/
def sCycle (c0 c1 c2 c3 : BitVec 5) : List (BitVec 5) :=
  [c0, c1, c2, c3, c0, c1, c2, c3, c0, c1, c2, c3, c0, c1, c2, c3]

/-- R74: the rotation amounts, sixteen per quartile, each in a 5-bit cell (R37). -/
def sTable : List (BitVec 5) :=
  sCycle 7 12 17 22 ++ sCycle 5 9 14 20 ++ sCycle 4 11 16 23 ++ sCycle 6 10 15 21

/-- R75: the round constants 0 to 15. -/
def kTable0 : List Word :=
  [0xd76aa478, 0xe8c7b756, 0x242070db, 0xc1bdceee,
   0xf57c0faf, 0x4787c62a, 0xa8304613, 0xfd469501,
   0x698098d8, 0x8b44f7af, 0xffff5bb1, 0x895cd7be,
   0x6b901122, 0xfd987193, 0xa679438e, 0x49b40821]

/-- R75: the round constants 16 to 31. -/
def kTable1 : List Word :=
  [0xf61e2562, 0xc040b340, 0x265e5a51, 0xe9b6c7aa,
   0xd62f105d, 0x02441453, 0xd8a1e681, 0xe7d3fbc8,
   0x21e1cde6, 0xc33707d6, 0xf4d50d87, 0x455a14ed,
   0xa9e3e905, 0xfcefa3f8, 0x676f02d9, 0x8d2a4c8a]

/-- R75: the round constants 32 to 47. -/
def kTable2 : List Word :=
  [0xfffa3942, 0x8771f681, 0x6d9d6122, 0xfde5380c,
   0xa4beea44, 0x4bdecfa9, 0xf6bb4b60, 0xbebfbc70,
   0x289b7ec6, 0xeaa127fa, 0xd4ef3085, 0x04881d05,
   0xd9d4d039, 0xe6db99e5, 0x1fa27cf8, 0xc4ac5665]

/-- R75: the round constants 48 to 63. -/
def kTable3 : List Word :=
  [0xf4292244, 0x432aff97, 0xab9423a7, 0xfc93a039,
   0x655b59c3, 0x8f0ccc92, 0xffeff47d, 0x85845dd1,
   0x6fa87e4f, 0xfe2ce6e0, 0xa3014314, 0x4e0811a1,
   0xf7537e82, 0xbd3af235, 0x2ad7d2bb, 0xeb86d391]

/-- R75: the 64 round constants, supplied by the spec from general knowledge (log entry 7). -/
def kTable : List Word := kTable0 ++ kTable1 ++ kTable2 ++ kTable3

/-- `S[j]` (R74). The table has 64 entries (R77), so the default is never read. -/
def rotAmount (j : BitVec 6) : BitVec 5 := sTable.getD j.toNat 0

/-- `K[j]` (R75). The table has 64 entries (R77), so the default is never read. -/
def roundConst (j : BitVec 6) : Word := kTable.getD j.toNat 0

/-- R76: the initial state words `IV[0..3]`. -/
def iv : Quad := ⟨0x67452301, 0xefcdab89, 0x98badcfe, 0x10325476⟩

end Sys2Proof.Machine
end

