-- ==== Sys2Proof/Machine/State.lean ====
section
/-! DEFINITION. The state of one engine (10_state.md R17, complete), the host's pins, and the state after reset (R35).
INVENTORY.md's '## State' lists every field with its rule. -/

namespace Sys2Proof.Machine

/-- The block buffer's bytes as a list of (offset, byte), offsets strictly rising, no entry equal to `Memory.unlisted`
(`Memory.wf` in Ops.lean). DESIGN CHOICE, log entry 5, safe: a representation of `BUF[0..63]` (R20). -/
abbrev Memory := List Host.Cell

/-- What an unlisted offset of `BUF` holds: the reset content 0x00 (R35). -/
def Memory.unlisted : Byte := 0x00

/-- The levels the host drives at one clock edge (30_encoding.md R57). -/
structure Pins where
  /-- synchronous reset, active high -/
  rst : Bool
  /-- the host presents a command word -/
  cmdValid : Bool
  /-- the command word; ignored when `cmdValid` is false -/
  cmd : BitVec 10
  deriving DecidableEq, Repr

/-- A host that presents nothing. -/
def Pins.quiet : Pins := ⟨false, false, 0⟩

/-- One engine and what its host will drive. The fields `h` to `dv` are R17's table, all of it. The fields `pins` and
`script` are the MODEL's own (log entry 1): the inputs of R32, held where the step can read them. -/
@[ext]
structure State where
  /-- `H[0..3]`, the chaining registers (R18) -/
  h : Quad
  /-- `W[0..3]`, the working registers (R19) -/
  w : Quad
  /-- `BUF[0..63]`, the block buffer (R20) -/
  buf : Memory
  /-- `LEN`, the number of valid accumulator bytes, 6 bits (R21) -/
  len : BitVec 6
  /-- `CNT`, the processed-byte counter, 64 bits (R29) -/
  cnt : BitVec 64
  /-- `PH`, the phase (R22) -/
  ph : Phase
  /-- `J`, the round index, 6 bits (R23) -/
  j : BitVec 6
  /-- `FIN`, why the current block is being compressed (R24) -/
  fin : FinCode
  /-- `DIG`, the digest register, 128 bits (R25) -/
  dig : BitVec 128
  /-- `DV`, digest valid (R26) -/
  dv : Bool
  /-- the levels the host drives at the coming clock edge (model's own) -/
  pins : Pins
  /-- the levels the host drives at the later edges, oldest first; quiet when it runs out (model's own) -/
  script : List Pins
  deriving DecidableEq, Repr

/-- Why a step stops with a fault: never. The set of exception causes is empty (60_exceptions.md R131), and "a model's
fault outcome is never produced by this hardware" (R138), so the type has no constructor. Safe and exact. -/
inductive Fault where
  deriving DecidableEq, Repr

/-- Why a step is refused. -/
inductive Refusal where
  /-- the instruction has no meaning in this model; raised by a refused arm of `exec` only, and no arm is refused. Safe. -/
  | notModelled (mnemonic : String)
  deriving DecidableEq, Repr

/-- The outcome of an instruction or a step. -/
abbrev Result := Host.Outcome State Fault Refusal

/-- The engine right after reset (R35, R147), every value the spec's own; the host presents nothing (log entry 1). -/
def State.reset : State where
  h := iv
  w := ⟨0, 0, 0, 0⟩
  buf := []
  len := 0
  cnt := 0
  ph := .idle
  j := 0
  fin := .data
  dig := 0
  dv := false
  pins := Pins.quiet
  script := []

end Sys2Proof.Machine
end

