-- ==== Sys2Proof/Machine/Ops.lean ====
section
/-! DEFINITION. The named operations every meaning is written over: arithmetic (00_scope.md R14), byte order (R15),
the buffer accesses (20_memory.md R43, R44), the writes several rules share, and reset. There is no operation that
takes an exception and none that returns from one: the engine has neither (60_exceptions.md R131, R135, R136). -/

namespace Sys2Proof.Machine

/-! ## Arithmetic and logic (R14) -/

/-- R14: addition modulo 2^32. -/
def add32 (x y : Word) : Word := x + y

/-- R14: addition modulo 2^64. -/
def add64 (x y : BitVec 64) : BitVec 64 := x + y

/-- R14: bitwise complement. -/
def not32 (x : Word) : Word := ~~~x

/-- R14: left rotation. Only the amounts 4 to 23 occur (R82); for 0 the spec gives no meaning and the formula is left
as it stands (log entry 8). -/
def rotl32 (x : Word) (s : BitVec 5) : Word := (x <<< s.toNat) ||| (x >>> (32 - s.toNat))

/-! ## Byte order (R15, R41) -/

/-- R15 `le32(s, k)`: the `k`-th little-endian word of a byte sequence with at least `4k+4` bytes. -/
def le32 (s : List Byte) (k : Nat) : Word :=
  s.getD (4 * k + 3) 0 ++ s.getD (4 * k + 2) 0 ++ s.getD (4 * k + 1) 0 ++ s.getD (4 * k) 0

/-- R15 `bytes32(w)`. -/
def bytes32 (w : Word) : List Byte :=
  [w.extractLsb' 0 8, w.extractLsb' 8 8, w.extractLsb' 16 8, w.extractLsb' 24 8]

/-- R15 `bytes64(v)`: byte `i` is `v[8i+7:8i]`. -/
def bytes64 (v : BitVec 64) : List Byte := (List.range 8).map fun i => v.extractLsb' (8 * i) 8

/-- R15 `ser(h0, h1, h2, h3)`: 16 bytes, word order A, B, C, D. -/
def ser (q : Quad) : List Byte := bytes32 q.a ++ bytes32 q.b ++ bytes32 q.c ++ bytes32 q.d

/-- R15 `vec128(s)`: the 128-bit vector whose bits `[8k+7:8k]` are byte `k`. -/
def vec128 (s : List Byte) : BitVec 128 := BitVec.ofNat 128 (s.foldr (fun b n => b.toNat + 256 * n) 0)

/-! ## The buffer (R38, R43, R44) -/

/-- The byte listed under a key, or the unlisted byte. -/
def Memory.lookup : Memory → Nat → Byte
  | [], _ => Memory.unlisted
  | (k, v) :: rest, a => if k = a then v else Memory.lookup rest a

/-- The canonical list with `b` at key `a`; writing the unlisted byte removes the entry. -/
def Memory.insert : Memory → Nat → Byte → Memory
  | [], a, b => if b = Memory.unlisted then [] else [(a, b)]
  | (k, v) :: rest, a, b =>
    if k < a then (k, v) :: Memory.insert rest a b
    else if k = a then (if b = Memory.unlisted then rest else (a, b) :: rest)
    else if b = Memory.unlisted then (k, v) :: rest
    else (a, b) :: (k, v) :: rest

/-- The canonical form: keys strictly rising, every key an offset of the buffer, no entry equal to the unlisted byte. -/
def Memory.wf (m : Memory) : Bool :=
  decide (m.Pairwise fun x y => x.1 < y.1) && m.all fun c => decide (c.1 < 64) && decide (c.2 ≠ Memory.unlisted)

/-- R43 `MemRead(a, 1)`. -/
def readByte (m : Memory) (a : Offset) : Byte := Memory.lookup m a.toNat

/-- R44 `MemWrite(a, 1, b)`. -/
def writeByte (m : Memory) (a : Offset) (b : Byte) : Memory := Memory.insert m a.toNat b

/-- R43 `MemRead(a, 4)`, little-endian; the rules ask for it at multiples of 4 only (R45), where no offset wraps. -/
def memRead4 (m : Memory) (a : Offset) : Word :=
  readByte m (a + 3) ++ readByte m (a + 2) ++ readByte m (a + 1) ++ readByte m a

/-- R44 `MemWrite(a, 8, v)`, little-endian; the rules ask for it at offset 56 only (R45), where no offset wraps. -/
def memWrite8 (m : Memory) (a : Offset) (v : BitVec 64) : Memory :=
  (List.range 8).foldl (fun acc i => writeByte acc (a + BitVec.ofNat 6 i) (v.extractLsb' (8 * i) 8)) m

/-- R44 `BUF[i..k) <- 0x00`, for `k <= 64`: a one-byte write of zero at every offset from `i` to `k-1`. -/
def zeroFill (m : Memory) (i k : Nat) : Memory :=
  (List.range' i (k - i)).foldl (fun acc a => writeByte acc (BitVec.ofNat 6 a) 0x00) m

/-- The 64 bytes of the buffer, `BUF[0..63]` (R20). -/
def bufBytes (m : Memory) : List Byte := (List.range 64).map fun a => readByte m (BitVec.ofNat 6 a)

/-! ## Writes that several rules share -/

/-- R85 `START(fin)`: load the working copies, zero the round index, note why, enter the rounds. -/
def State.startBlock (fin : FinCode) (s : State) : State :=
  { s with w := s.h, j := 0, fin := fin, ph := .round }

/-- The writes that bring the stream context to `ctx0` (R34), common to `INIT` (R109) and `EMIT` (R112). -/
def State.freshContext (s : State) : State :=
  { s with h := iv, len := 0, cnt := 0, buf := zeroFill s.buf 0 64 }

/-- R147: a step with `rst = 1` gives every register its reset value; what the host will drive is not the engine's. -/
def State.resetEngine (s : State) : State :=
  { State.reset with pins := s.pins, script := s.script }

/-- The next clock edge: the host's next levels stand on the pins, and nothing when its script has run out. -/
def State.nextPins (s : State) : State :=
  match s.script with
  | [] => { s with pins := Pins.quiet }
  | p :: ps => { s with pins := p, script := ps }

/-- The clock edge that follows an outcome. -/
def advance : Result → Result
  | .next s => .next s.nextPins
  | .fault r => .fault r
  | .refused r => .refused r

end Sys2Proof.Machine
end

