-- ==== Sys2Proof/Machine/Operands.lean ====
section
/-! DEFINITION. The operands of the steps. All but the byte of `PUSH` are implicit: message words, message indices,
the accumulator, the bit count. -/

namespace Sys2Proof.Machine

/-- R42: the message word `M[g] = MemRead(4g, 4)`, `g` in 0..15. -/
def msgWord (m : Memory) (g : BitVec 4) : Word := memRead4 m (g ++ 0#2)

/-- R83 `g0(j) = j` (in quartile 0, where `j <= 15`; the low four bits of `j` elsewhere, log entry 6). -/
def g0 (j : BitVec 6) : BitVec 4 := BitVec.ofNat 4 j.toNat

/-- R83 `g1(j) = (5j + 1) mod 16`. -/
def g1 (j : BitVec 6) : BitVec 4 := BitVec.ofNat 4 ((5 * j.toNat + 1) % 16)

/-- R83 `g2(j) = (3j + 5) mod 16`. -/
def g2 (j : BitVec 6) : BitVec 4 := BitVec.ofNat 4 ((3 * j.toNat + 5) % 16)

/-- R83 `g3(j) = 7j mod 16`. -/
def g3 (j : BitVec 6) : BitVec 4 := BitVec.ofNat 4 (7 * j.toNat % 16)

/-- The accumulator `ACC = BUF[0 .. LEN-1]`, oldest byte first (R20). -/
def State.acc (s : State) : List Byte := (List.range s.len.toNat).map fun a => readByte s.buf (BitVec.ofNat 6 a)

/-- R104: `TB = (8 * (CNT + LEN)) mod 2^64`. -/
def totalBits (cnt : BitVec 64) (len : BitVec 6) : BitVec 64 := 8 * add64 cnt (len.setWidth 64)

end Sys2Proof.Machine
end

