-- ==== Sys2Proof/Machine/Flags.lean ====
section
/-! DEFINITION. The status values and the outputs (10_state.md R25 to R28, R31). There are no arithmetic flags: the only
one-bit values are `DV` and the derived `ready`. -/

namespace Sys2Proof.Machine

/-- R26: `DV <- 0`, at the acceptance of `INIT`, `PUSH` and `FINAL`. -/
def State.clearValid (s : State) : State := { s with dv := false }

/-- R27: `ready = 1` iff `PH = IDLE`; it is the pin `cmd_ready`. -/
def State.ready (s : State) : Bool := s.ph == .idle

/-- R28: `SNAP`, always the serialization of `H`. -/
def State.snap (s : State) : BitVec 128 := vec128 (ser s.h)

/-- What the host can observe, and nothing else (00_scope.md R12). -/
structure Outputs where
  cmdReady : Bool
  snap : BitVec 128
  dig : BitVec 128
  dv : Bool
  deriving DecidableEq, Repr

/-- The output pins (R57). -/
def State.outputs (s : State) : Outputs := ⟨s.ready, s.snap, s.dig, s.dv⟩

end Sys2Proof.Machine
end

