-- ==== Sys2Proof/Machine/Compressor.lean ====
section
/-! DEFINITION. The Block Compressor (41_block_compressor.md): the round functions, the pure `md5Round` and `compress`, and
the meanings of `START`, `RND0` to `RND3` and `FOLD`. -/

namespace Sys2Proof.Machine

/-! ## The round functions (R81) -/

/-- R81 `f0`. -/
def f0 (b c d : Word) : Word := (b &&& c) ||| (not32 b &&& d)

/-- R81 `f1`. -/
def f1 (b c d : Word) : Word := (d &&& b) ||| (not32 d &&& c)

/-- R81 `f2`. -/
def f2 (b c d : Word) : Word := b ^^^ c ^^^ d

/-- R81 `f3`. -/
def f3 (b c d : Word) : Word := c ^^^ (b ||| not32 d)

/-- The body every round shares (R84, R86 to R89): `fv` is the round function's value on the old `b, c, d`, `m` the
message word, `j` the round number. -/
def roundBody (j : BitVec 6) (w : Quad) (fv m : Word) : Quad :=
  let t := add32 (add32 (add32 w.a fv) (roundConst j)) m
  ⟨w.d, add32 w.b (rotl32 t (rotAmount j)), w.b, w.c⟩

/-! ## The function level (R84, R93) -/

/-- R84 `round`: the round function at round number `j` on the message words `msg`. -/
def md5Round (j : BitVec 6) (w : Quad) (msg : BitVec 4 → Word) : Quad :=
  if quartile j = 0 then roundBody j w (f0 w.b w.c w.d) (msg (g0 j))
  else if quartile j = 1 then roundBody j w (f1 w.b w.c w.d) (msg (g1 j))
  else if quartile j = 2 then roundBody j w (f2 w.b w.c w.d) (msg (g2 j))
  else roundBody j w (f3 w.b w.c w.d) (msg (g3 j))

/-- R93: the first `n` rounds, from round 0. -/
def rounds (n : Nat) (w : Quad) (msg : BitVec 4 → Word) : Quad :=
  (List.range n).foldl (fun acc j => md5Round (BitVec.ofNat 6 j) acc msg) w

/-- R90, R93: the add-back, word by word. -/
def addQuad (x y : Quad) : Quad := ⟨add32 x.a y.a, add32 x.b y.b, add32 x.c y.c, add32 x.d y.d⟩

/-- R93 `compress(X, h)` for a 64-byte sequence `X`. -/
def compress (x : List Byte) (h : Quad) : Quad :=
  addQuad h (rounds 64 h fun g => le32 x g.toNat)

/-! ## The meanings -/

/-- R85 `START(fin)`. -/
def execStart (fin : FinCode) (s : State) : Result := .next (s.startBlock fin)

/-- R86 `RND0`. -/
def execRnd0 (s : State) : Result :=
  .next { s with
    w := roundBody s.j s.w (f0 s.w.b s.w.c s.w.d) (msgWord s.buf (g0 s.j))
    j := s.j + 1 }

/-- R87 `RND1`. -/
def execRnd1 (s : State) : Result :=
  .next { s with
    w := roundBody s.j s.w (f1 s.w.b s.w.c s.w.d) (msgWord s.buf (g1 s.j))
    j := s.j + 1 }

/-- R88 `RND2`. -/
def execRnd2 (s : State) : Result :=
  .next { s with
    w := roundBody s.j s.w (f2 s.w.b s.w.c s.w.d) (msgWord s.buf (g2 s.j))
    j := s.j + 1 }

/-- R89 `RND3`: the index wraps from 63 to 0, and round 63, tested before the write, ends the rounds. -/
def execRnd3 (s : State) : Result :=
  .next { s with
    w := roundBody s.j s.w (f3 s.w.b s.w.c s.w.d) (msgWord s.buf (g3 s.j))
    j := s.j + 1
    ph := if s.j = 63 then .fold else s.ph }

/-- R90 `FOLD`: the add-back; a data block counts 64 bytes and ends, a tail block does not count. -/
def execFold (s : State) : Result :=
  match s.fin with
  | .data => .next { s with h := addQuad s.h s.w, cnt := add64 s.cnt 64, ph := .idle }
  | .tailMore => .next { s with h := addQuad s.h s.w, ph := .pad2 }
  | .tailLast => .next { s with h := addQuad s.h s.w, ph := .emit }

end Sys2Proof.Machine
end

