-- ==== Sys2Proof/Machine/Padding.lean ====
section
/-! DEFINITION. The Padding Builder (42_padding_builder.md): the pure `pad`, and the meanings of `PAD1` and `PAD2`. -/

namespace Sys2Proof.Machine

/-- R99: the zero count `z(n) = (55 - n) mod 64`, for `0 <= n <= 63`. -/
def zeroCount (n : Nat) : Nat := (119 - n) % 64

/-- R98 `pad(tail, TB)`. -/
def pad (tail : List Byte) (tb : BitVec 64) : List Byte :=
  tail ++ [0x80] ++ List.replicate (zeroCount tail.length) 0x00 ++ bytes64 tb

/-- R102: the writes of `PAD1`, from the values at the start of the step. -/
def State.padFirst (s : State) : State :=
  let marked := zeroFill (writeByte s.buf s.len 0x80) (s.len.toNat + 1) 64
  if s.len.toNat ≤ 55 then
    State.startBlock .tailLast { s with buf := memWrite8 marked 56 (totalBits s.cnt s.len) }
  else
    State.startBlock .tailMore { s with buf := marked }

/-- R102 `PAD1`. -/
def execPad1 (s : State) : Result := .next s.padFirst

/-- R103 `PAD2`. -/
def execPad2 (s : State) : Result :=
  .next (State.startBlock .tailLast
    { s with buf := memWrite8 (zeroFill s.buf 0 56) 56 (totalBits s.cnt s.len) })

end Sys2Proof.Machine
end

