-- ==== Sys2Proof/Machine/Engine.lean ====
section
/-! DEFINITION. The Digest Engine's commands and `EMIT` (43_digest_engine.md). A command's meaning is its effect at
acceptance; whether it is accepted is the business of `IDLE` (Port.lean, R58). -/

namespace Sys2Proof.Machine

/-- R108 `NOP`: nothing is written. -/
def execNop (s : State) : Result := .next s

/-- R109 `INIT`: the initial stream context, `DV` cleared; `W`, `J`, `FIN`, `DIG`, `PH` unchanged. -/
def execInit (s : State) : Result := .next s.freshContext.clearValid

/-- R110 `PUSH b`: the byte goes to offset `LEN`; the 64th byte starts the compression of the block. -/
def execPush (b : Byte) (s : State) : Result :=
  let t := State.clearValid { s with buf := writeByte s.buf s.len b }
  if s.len = 63 then .next (State.startBlock .data { t with len := 0 })
  else .next { t with len := s.len + 1 }

/-- R111 `FINAL`: `DV` cleared, then `PAD1`. -/
def execFinal (s : State) : Result := .next s.clearValid.padFirst

/-- R112 `EMIT`: `DIG` from `H` read before its reset, `DV` set, the initial stream context, idle. -/
def execEmit (s : State) : Result :=
  .next { s.freshContext with dig := vec128 (ser s.h), dv := true, ph := .idle }

end Sys2Proof.Machine
end

