-- ==== Sys2Proof/Machine/Port.lean ====
section
/-! DEFINITION. The command port (30_encoding.md R57, R58): the step of phase `IDLE`, and which step a state selects. -/

namespace Sys2Proof.Machine

/-- R58: the engine accepts a command word and performs the command it decodes to in that same step. -/
def accept (w : BitVec 10) (s : State) : Result :=
  match decodeCmd w with
  | .nop => execNop s
  | .push b => execPush b s
  | .final => execFinal s
  | .init => execInit s

/-- R58 `IDLE`: accept the presented command, or, with none presented, leave the state as it is. -/
def execIdle (s : State) : Result :=
  if s.pins.cmdValid then accept s.pins.cmd s else .next s

/-- R63, R64: the step a state performs, selected by `PH` and, in the rounds, by `J[5:4]`, and by nothing else. -/
def State.select (s : State) : Instr := selectStep s.ph s.j

/-- The command accepted at this step, if any (R58, R134): none under reset, none while busy. -/
def State.accepted (s : State) : Option Command :=
  if s.pins.rst = false ∧ s.ph = .idle ∧ s.pins.cmdValid = true then some (decodeCmd s.pins.cmd) else none

end Sys2Proof.Machine
end

