-- ==== Sys2Proof/Machine/Dispatch.lean ====
section
/-! DEFINITION. One arm per instruction. -/

namespace Sys2Proof.Machine

-- every arm is one direct call of the instruction's meaning
def exec (i : Instr) (s : State) : Host.Outcome State Fault Refusal :=
  match i with
  | .nop => Sys2Proof.Machine.execNop s
  | .push b => Sys2Proof.Machine.execPush b s
  | .final => Sys2Proof.Machine.execFinal s
  | .init => Sys2Proof.Machine.execInit s
  | .idle => Sys2Proof.Machine.execIdle s
  | .rnd0 => Sys2Proof.Machine.execRnd0 s
  | .rnd1 => Sys2Proof.Machine.execRnd1 s
  | .rnd2 => Sys2Proof.Machine.execRnd2 s
  | .rnd3 => Sys2Proof.Machine.execRnd3 s
  | .fold => Sys2Proof.Machine.execFold s
  | .pad2 => Sys2Proof.Machine.execPad2 s
  | .emit => Sys2Proof.Machine.execEmit s
  | .start fin => Sys2Proof.Machine.execStart fin s
  | .pad1 => Sys2Proof.Machine.execPad1 s

end Sys2Proof.Machine
end

