-- ==== Sys2Proof/Machine/Step.lean ====
section
/-! DEFINITION. One step: one rising edge of `clk` (30_encoding.md R57). -/

namespace Sys2Proof.Machine

/-- R58, R63, R134, R147: reset wins over everything; otherwise the step the phase selects. Then the host's next levels
come up on the pins. -/
def step (s : State) : Host.Outcome State Fault Refusal :=
  if s.pins.rst then advance (.next s.resetEngine) else advance (exec s.select s)

/-- The state that presents one pattern of the table: a command word to an idle engine, or the phase (and, for a round,
the index) that selects a micro-step. No `rst`; for a phase, no command presented. -/
def State.withTableWord (s : State) : TableWord → State
  | .command c => { s with ph := .idle, pins := ⟨false, true, c⟩ }
  | .phase v => { s with ph := (Phase.ofCode v).getD s.ph, pins := ⟨false, false, s.pins.cmd⟩ }
  | .round v => { s with ph := .round, j := v.extractLsb' 0 6, pins := ⟨false, false, s.pins.cmd⟩ }

/-- The state in which the very next step runs the instruction a table row's number stands for. A number that the decoder
gives no instruction changes nothing. Log entry 9 says how a program comes to run from reset. -/
def State.withFetchWord (s : State) (nbits w : Nat) : State :=
  match tableWord nbits w with
  | none => s
  | some t => if (decode t).toOption = none then s else s.withTableWord t

end Sys2Proof.Machine
end

