-- ==== Sys2Proof/Machine/CommandLevel.lean ====
section
/-! DEFINITION. The command level and the function level (00_scope.md R10): what one accepted command does between two
idle points (43_digest_engine.md R113), the digest of a byte sequence (R124), and the source's library calls (R68, R114
to R117). The micro-step machine is in Step.lean; statements relate the two. -/

namespace Sys2Proof.Machine

/-! ## The digest function -/

/-- The first `k` 64-byte blocks of a byte sequence, in order (R124). -/
def blocks (k : Nat) (s : List Byte) : List (List Byte) :=
  (List.range k).map fun i => (s.drop (64 * i)).take 64

/-- Every whole block of a byte sequence compressed in order, from the chaining value `h` (R113, R124). -/
def compressAll (s : List Byte) (h : Quad) : Quad :=
  (blocks (s.length / 64) s).foldl (fun acc x => compress x acc) h

/-- R124 `md5(s)`, 16 bytes. -/
def md5 (s : List Byte) : List Byte :=
  let tail := s.drop (64 * (s.length / 64))
  ser (compressAll (pad tail (BitVec.ofNat 64 (8 * s.length))) (compressAll s iv))

/-! ## The command level -/

/-- What the command level sees of an idle engine: the stream context `(H, ACC, CNT)` (R34) and the digest outputs. -/
@[ext]
structure Idle where
  h : Quad
  acc : List Byte
  cnt : BitVec 64
  dig : BitVec 128
  dv : Bool
  deriving DecidableEq, Repr

/-- The command-level view of a state. -/
def State.view (s : State) : Idle := ⟨s.h, s.acc, s.cnt, s.dig, s.dv⟩

/-- R113 `exec(s, c)`. -/
def Idle.exec (c : Command) (x : Idle) : Idle :=
  match c with
  | .nop => x
  | .init => { x with h := iv, acc := [], cnt := 0, dv := false }
  | .push b =>
    if x.acc.length < 63 then { x with acc := x.acc ++ [b], dv := false }
    else { x with h := compress (x.acc ++ [b]) x.h, acc := [], cnt := add64 x.cnt 64, dv := false }
  | .final =>
    let tb := 8 * add64 x.cnt (BitVec.ofNat 64 x.acc.length)
    ⟨iv, [], 0, vec128 (ser (compressAll (pad x.acc tb) x.h)), true⟩

/-- Several commands in order (R51). -/
def Idle.run (cs : List Command) (x : Idle) : Idle := cs.foldl (fun acc c => Idle.exec c acc) x

/-! ## The library calls -/

/-- The source's four calls, the pseudo-instructions of R68. -/
inductive LibCall where
  /-- `NEW` = `new()` (R114) -/
  | new
  /-- `UPDATE s` = `update(bytes)` (R115) -/
  | update (s : List Byte)
  /-- `FINALIZE` = `finalize()` (R116) -/
  | finalize
  /-- `CALC s` = `calculate(bytes)` (R117) -/
  | calculate (s : List Byte)
  deriving DecidableEq, Repr

/-- R68: the expansion into commands. -/
def LibCall.expand : LibCall → List Command
  | .new => [.init]
  | .update s => s.map .push
  | .finalize => [.final]
  | .calculate s => [.init] ++ s.map .push ++ [.final]

/-- R68: where the result is read, once the engine is ready again. -/
def LibCall.result (c : LibCall) (s : State) : Option (BitVec 128) :=
  match c with
  | .new => none
  | .update _ => some s.snap
  | .finalize => some s.dig
  | .calculate _ => some s.dig

/-! ## Step counts of this micro-architecture -/

/-- R159: steps from the acceptance of a command, counted as step 1, to the step after which `ready = 1` again. Not
normative (R160). -/
def stepCount (len : BitVec 6) : Command → Nat
  | .nop => 1
  | .init => 1
  | .push _ => if len = 63 then 66 else 1
  | .final => if len.toNat ≤ 55 then 67 else 133

end Sys2Proof.Machine
end

