-- ==== Sys2Proof/Safety.lean ====
section
/-! DEFINITION. The terms statements use: the invariants of 10_state.md R33, runs, and hosts that do not reset. -/

namespace Sys2Proof.Machine

/-- R33 items 3 to 7, and that the buffer is in canonical form. Items 1 and 2 hold by the types of `PH` and `FIN`. Item 6
is stated here with `LEN` bounded through the whole first tail block, not only at `PH = PAD2`, since `FIN = TAIL_MORE`
is what leads there. Item 8 is about steps, not about states. -/
structure State.Inv (s : State) : Prop where
  /-- the buffer's canonical form -/
  bufWf : Memory.wf s.buf
  /-- item 3 -/
  indexZero : s.ph ≠ .round → s.j = 0
  /-- item 4 -/
  cntBlocks : s.cnt.extractLsb' 0 6 = 0
  /-- item 5 -/
  dataEmpty : s.ph ≠ .idle → s.fin = .data → s.len = 0
  /-- item 6, the length -/
  moreLength : s.ph ≠ .idle → s.fin = .tailMore → 56 ≤ s.len.toNat
  /-- item 6, at `PAD2` -/
  pad2More : s.ph = .pad2 → s.fin = .tailMore
  /-- item 6, at `EMIT` -/
  emitLast : s.ph = .emit → s.fin = .tailLast
  /-- item 7 -/
  validIdle : s.dv = true → s.ph = .idle

/-- The host does not assert `rst` at the next `n` clock edges. -/
abbrev State.unreset (n : Nat) (s : State) : Prop := ∀ p ∈ (s.pins :: s.script).take n, p.rst = false

/-- `n` steps of the machine, stopping at a fault or a refusal. -/
def run (n : Nat) (s : State) : Result := Host.Core.run core n s

/-- The commands accepted in the first `n` steps, in order. -/
def acceptedIn : Nat → State → List Command
  | 0, _ => []
  | n + 1, s =>
    match step s with
    | .next t => s.accepted.toList ++ acceptedIn n t
    | .fault _ => s.accepted.toList
    | .refused _ => s.accepted.toList

/-- The stream (00_scope.md section 6): the bytes pushed since the last `INIT` or `FINAL` of a command sequence. -/
def openStream (cs : List Command) : List Byte :=
  cs.foldl (fun acc c => match c with
    | .nop => acc
    | .push b => acc ++ [b]
    | .final => []
    | .init => []) []

/-- R34: the initial stream context `ctx0 = (IV, [], 0)`. -/
def State.fresh (s : State) : Prop := s.h = iv ∧ s.len = 0 ∧ s.cnt = 0

/-- The command `c` is presented to an idle engine that is not being reset (R58). -/
abbrev State.offered (c : Command) (s : State) : Prop :=
  s.ph = .idle ∧ s.pins.rst = false ∧ s.pins.cmdValid = true ∧ decodeCmd s.pins.cmd = c

/-- The state presents the pattern `t` of the opcode table: a command word on the pins of an idle engine, the phase bits (with no
command presented, for `IDLE`), or the phase and index bits of a round (R58, R63, R64). -/
def State.presents (s : State) : TableWord → Prop
  | .command w => s.ph = .idle ∧ s.pins.cmdValid = true ∧ s.pins.cmd = w
  | .phase v => s.ph.code = v ∧ s.ph ≠ .round ∧ (s.ph = .idle → s.pins.cmdValid = false)
  | .round v => s.ph = .round ∧ v = s.ph.code ++ s.j

/-- The working registers after a round, in the words of R86 to R89: `f` the round function's value, `g` the index of the
message word, which is read from the buffer's bytes as R42 says. -/
def State.afterRound (s : State) (f : Word) (g : Nat) : Quad :=
  ⟨s.w.d, s.w.b + (s.w.a + f + roundConst s.j + le32 (bufBytes s.buf) g).rotateLeft (rotAmount s.j).toNat, s.w.b, s.w.c⟩

end Sys2Proof.Machine
end

