-- ==== Sys2Proof/Certificates/Slice0/Obligations.lean ====
section
/-! DEFINITION. The statements for the provers. Each docstring names the rule of spec/ it formalises. A statement that
gives the whole next state is that instruction's frame as well: every register not named keeps its value, and where a
buffer is written the statement says what every one of its bytes reads afterwards. `Memory.wf`, the canonical form of the
list that holds `BUF`, is the model's representation (log entry 5); it is an invariant, and where a statement assumes it, it
rules out lists that no run reaches. A statement about `exec` of an instruction in every state includes states in which
the spec never selects it; there the model follows the rule's pseudocode (log entry 6). -/

open Sys2Proof Sys2Proof.Machine

/-! ## Encoding -/

/-- Words written out bit by bit from R60, R63, R64 (the commands' are 95_test_vectors.md T7). -/
def Obligations.SpecWordsDecodeAsTheTableSays : Prop :=
  decode (.command 0b0000000000) = .ok .nop ∧ decode (.command 0b0011111111) = .ok .nop ∧
  decode (.command 0b0100000000) = .ok (.push 0x00) ∧ decode (.command 0b0101100001) = .ok (.push 0x61) ∧
  decode (.command 0b0110000000) = .ok (.push 0x80) ∧ decode (.command 0b0111111111) = .ok (.push 0xff) ∧
  decode (.command 0b1000000000) = .ok .final ∧ decode (.command 0b1010100101) = .ok .final ∧
  decode (.command 0b1100000000) = .ok .init ∧ decode (.command 0b1111111111) = .ok .init ∧
  decode (.phase 0b000) = .ok .idle ∧ decode (.phase 0b010) = .ok .fold ∧
  decode (.phase 0b011) = .ok .pad2 ∧ decode (.phase 0b100) = .ok .emit ∧
  decode (.round 0b001000101) = .ok .rnd0 ∧ decode (.round 0b001010000) = .ok .rnd1 ∧
  decode (.round 0b001101111) = .ok .rnd2 ∧ decode (.round 0b001111111) = .ok .rnd3

/-- R60, R61, R62: the command decoder is the match and mask of the four rows on every 10-bit word, the operand of `PUSH`
is `cmd[7:0]` unchanged, no word is rejected, and exactly one command fits. -/
def Obligations.EveryCommandWordIsExactlyOneCommand : Prop :=
  ∀ w : BitVec 10,
    (decodeCmd w = .nop ↔ w &&& 0x300 = 0x000) ∧
    (∀ b : Byte, decodeCmd w = .push b ↔ w &&& 0x300 = 0x100 ∧ w &&& 0x0ff = b.setWidth 10) ∧
    (decodeCmd w = .final ↔ w &&& 0x300 = 0x200) ∧
    (decodeCmd w = .init ↔ w &&& 0x300 = 0x300) ∧
    decode (.command w) = .ok (decodeCmd w).instr

/-- R63, R64, R71, R72: on every pattern of every format the decoder answers the instruction of the one row of the opcode
table that matches, and rejects exactly the patterns that match no row. -/
def Obligations.DecoderAgreesWithTheOpcodeTable : Prop :=
  ∀ t : TableWord,
    (∀ i, decode t = .ok i → (opcodeRows.filter (·.matchesWord t)).map (·.mnemonic) = [i.mnemonic]) ∧
    (∀ e, decode t = .error e → ∀ r ∈ opcodeRows, r.matchesWord t = false)

/-- Decoding an encoded instruction gives it back, for every instruction that has a pattern and every operand; whatever
decodes has a pattern; the bits `J[3:0]` of a round's pattern and the ignored byte of a command may be anything (R62,
R64). -/
def Obligations.DecodeOfEncodeIsTheInstruction : Prop :=
  (∀ i : Instr, i.wf = true → ∃ t, encode i = some t ∧ decode t = .ok i) ∧
  (∀ t i, decode t = .ok i → i.wf = true) ∧
  (∀ q jl, decode (.round (roundWord q jl)) = .ok (roundInstr q)) ∧
  (∀ c : Command, decodeCmd (encodeCmd c) = c) ∧
  (∀ b : Byte, decodeCmd (0#2 ++ b) = .nop ∧ decodeCmd (2#2 ++ b) = .final ∧ decodeCmd (3#2 ++ b) = .init)

/-! ## Primitives and tables -/

/-- R14: the arithmetic and logic primitives. -/
def Obligations.PrimitivesComputeModuloAndRotate : Prop :=
  (∀ x y : Word, (add32 x y).toNat = (x.toNat + y.toNat) % 2 ^ 32) ∧
  (∀ x y : BitVec 64, (add64 x y).toNat = (x.toNat + y.toNat) % 2 ^ 64) ∧
  (∀ (x : Word) (i : Nat), i < 32 → (not32 x).getLsbD i = !x.getLsbD i) ∧
  (∀ (x : Word) (s : BitVec 5) (i : Nat), 1 ≤ s.toNat → i < 32 →
    (rotl32 x s).getLsbD i = x.getLsbD ((i + 32 - s.toNat) % 32))

/-- R15, R70: the serialization of four words is 16 bytes, and as a 128-bit vector it is the four words, the first lowest;
its bits `[8k+7:8k]` are byte `k`. -/
def Obligations.SerializationPutsTheFirstWordLowest : Prop :=
  ∀ q : Quad, (ser q).length = 16 ∧ vec128 (ser q) = q.d ++ q.c ++ q.b ++ q.a ∧
    ∀ k < 16, (vec128 (ser q)).extractLsb' (8 * k) 8 = (ser q).getD k 0

/-- R74, R77: both tables have 64 entries, and the rotation table is the closed form of the four 4-cycles on every round. -/
def Obligations.RotationTableFollowsTheFourCycles : Prop :=
  sTable.length = 64 ∧ kTable.length = 64 ∧
  ∀ j : BitVec 6, some (rotAmount j) =
    (([[7, 12, 17, 22], [5, 9, 14, 20], [4, 11, 16, 23], [6, 10, 15, 21]] : List (List (BitVec 5))).getD
      (j.toNat / 16) [])[j.toNat % 4]?

/-- R81: the four round functions, bit by bit; `f0` and `f1` are selections. -/
def Obligations.RoundFunctionsBitByBit : Prop :=
  ∀ (b c d : Word) (i : Nat), i < 32 →
    (f0 b c d).getLsbD i = (if b.getLsbD i then c.getLsbD i else d.getLsbD i) ∧
    (f1 b c d).getLsbD i = (if d.getLsbD i then b.getLsbD i else c.getLsbD i) ∧
    (f2 b c d).getLsbD i = (b.getLsbD i ^^ c.getLsbD i ^^ d.getLsbD i) ∧
    (f3 b c d).getLsbD i = (c.getLsbD i ^^ (b.getLsbD i || !d.getLsbD i))

/-- R83: the index formulas, on every round of their quartile, and that each quartile uses every message word once. -/
def Obligations.MessageIndexIsAPermutationPerQuartile : Prop :=
  (∀ j : BitVec 6, (j.toNat < 16 → (g0 j).toNat = j.toNat) ∧ (g1 j).toNat = (5 * j.toNat + 1) % 16 ∧
    (g2 j).toNat = (3 * j.toNat + 5) % 16 ∧ (g3 j).toNat = 7 * j.toNat % 16) ∧
  (∀ g : BitVec 4, ∃ jl : BitVec 4, (∀ k, g0 (0#2 ++ k) = g ↔ k = jl)) ∧
  (∀ g : BitVec 4, ∃ jl : BitVec 4, (∀ k, g1 (1#2 ++ k) = g ↔ k = jl)) ∧
  (∀ g : BitVec 4, ∃ jl : BitVec 4, (∀ k, g2 (2#2 ++ k) = g ↔ k = jl)) ∧
  (∀ g : BitVec 4, ∃ jl : BitVec 4, (∀ k, g3 (3#2 ++ k) = g ↔ k = jl))

/-- R84: the pure round, in the words of the rule. -/
def Obligations.RoundRotatesTheSumIntoB : Prop :=
  ∀ (j : BitVec 6) (a b c d : Word) (msg : BitVec 4 → Word),
    md5Round j ⟨a, b, c, d⟩ msg =
      let f := if j.toNat / 16 = 0 then (b &&& c) ||| (~~~b &&& d)
        else if j.toNat / 16 = 1 then (d &&& b) ||| (~~~d &&& c)
        else if j.toNat / 16 = 2 then b ^^^ c ^^^ d
        else c ^^^ (b ||| ~~~d)
      let g := if j.toNat / 16 = 0 then j.toNat
        else if j.toNat / 16 = 1 then (5 * j.toNat + 1) % 16
        else if j.toNat / 16 = 2 then (3 * j.toNat + 5) % 16
        else 7 * j.toNat % 16
      ⟨d, b + (a + f + roundConst j + msg (BitVec.ofNat 4 g)).rotateLeft (rotAmount j).toNat, b, c⟩

/-! ## The buffer -/

/-- R41, R42: the message-word view of the buffer is the little-endian words of its bytes, low byte first. -/
def Obligations.MessageWordIsTheLittleEndianWordOfTheBuffer : Prop :=
  ∀ (m : Memory) (g : BitVec 4),
    msgWord m g = le32 (bufBytes m) g.toNat ∧
    ∀ i < 4, (msgWord m g).extractLsb' (8 * i) 8 = readByte m (BitVec.ofNat 6 (4 * g.toNat + i))

/-- R44, R56: the length field written as eight bytes is read back as its two words; the other fourteen are untouched, and
the buffer stays canonical. -/
def Obligations.LengthFieldReadsBackAsTwoWords : Prop :=
  ∀ (m : Memory) (v : BitVec 64), Memory.wf m →
    Memory.wf (memWrite8 m 56 v) ∧
    msgWord (memWrite8 m 56 v) 14 = v.extractLsb' 0 32 ∧
    msgWord (memWrite8 m 56 v) 15 = v.extractLsb' 32 32 ∧
    ∀ g : BitVec 4, g.toNat < 14 → msgWord (memWrite8 m 56 v) g = msgWord m g

/-! ## Commands and actions: result and frame -/

/-- R108: `NOP` writes nothing; it is an idle step, and `UPDATE` of the empty sequence issues no command. -/
def Obligations.NopWritesNothing : Prop :=
  ∀ s : State, exec .nop s = .next s ∧
    (∀ w : BitVec 10, w.extractLsb' 8 2 = 0 → decodeCmd w = .nop) ∧
    (s.pins.cmdValid = false → exec .idle s = exec .nop s) ∧
    (LibCall.update []).expand = []

/-- R109: `INIT` gives the initial stream context and clears `DV`; after reset it changes nothing. -/
def Obligations.InitGivesTheInitialContext : Prop :=
  (∀ w : BitVec 10, w.extractLsb' 8 2 = 3 → decodeCmd w = .init) ∧
  exec .init State.reset = .next State.reset ∧
  ∀ s : State, Memory.wf s.buf → ∃ m : Memory,
    exec .init s = .next { s with
      h := ⟨0x67452301, 0xefcdab89, 0x98badcfe, 0x10325476⟩, len := 0, cnt := 0, buf := m, dv := false } ∧
    ∀ a, readByte m a = 0

/-- R110: `PUSH b` writes the byte at offset `LEN` and nowhere else, clears `DV`, and either steps `LEN` or, at the 64th
byte, empties the accumulator and performs `START(0)`. -/
def Obligations.PushWritesOneByteAtLen : Prop :=
  ∀ (b : Byte) (s : State), Memory.wf s.buf → ∃ m : Memory,
    exec (.push b) s = .next (if s.len = 63
      then { s with buf := m, dv := false, len := 0, w := s.h, j := 0, fin := .data, ph := .round }
      else { s with buf := m, dv := false, len := s.len + 1 }) ∧
    ∀ a, readByte m a = if a = s.len then b else readByte s.buf a

/-- R102, R104: `PAD1` keeps the tail, puts 0x80 after it, zeros after that, and, when the tail is at most 55 bytes, the bit
count at 56..63; then `START(2)` or `START(1)`. -/
def Obligations.PadOneBuildsTheFirstTailBlock : Prop :=
  ∀ s : State, Memory.wf s.buf → ∃ m : Memory,
    exec .pad1 s = .next { s with
      buf := m, w := s.h, j := 0, ph := .round, fin := if s.len.toNat ≤ 55 then .tailLast else .tailMore } ∧
    ∀ a, readByte m a =
      if a.toNat < s.len.toNat then readByte s.buf a
      else if a = s.len then 0x80
      else if s.len.toNat ≤ 55 ∧ 56 ≤ a.toNat then
        (BitVec.ofNat 64 (8 * (s.cnt.toNat + s.len.toNat))).extractLsb' (8 * (a.toNat - 56)) 8
      else 0x00

/-- R111: `FINAL` clears `DV` and performs `PAD1`. -/
def Obligations.FinalClearsValidAndPads : Prop :=
  ∀ s : State, Memory.wf s.buf → ∃ m : Memory,
    exec .final s = .next { s with
      dv := false, buf := m, w := s.h, j := 0, ph := .round,
      fin := if s.len.toNat ≤ 55 then .tailLast else .tailMore } ∧
    ∀ a, readByte m a =
      if a.toNat < s.len.toNat then readByte s.buf a
      else if a = s.len then 0x80
      else if s.len.toNat ≤ 55 ∧ 56 ≤ a.toNat then
        (BitVec.ofNat 64 (8 * (s.cnt.toNat + s.len.toNat))).extractLsb' (8 * (a.toNat - 56)) 8
      else 0x00

/-- R103: `PAD2` writes 56 zeros and the bit count, then `START(2)`. -/
def Obligations.PadTwoBuildsTheSecondTailBlock : Prop :=
  ∀ s : State, Memory.wf s.buf → ∃ m : Memory,
    exec .pad2 s = .next { s with buf := m, w := s.h, j := 0, ph := .round, fin := .tailLast } ∧
    ∀ a, readByte m a =
      if 56 ≤ a.toNat then
        (BitVec.ofNat 64 (8 * (s.cnt.toNat + s.len.toNat))).extractLsb' (8 * (a.toNat - 56)) 8
      else 0x00

/-- R85: `START(fin)`. -/
def Obligations.StartLoadsTheWorkingCopies : Prop :=
  ∀ (fin : FinCode) (s : State),
    exec (.start fin) s = .next { s with w := s.h, j := 0, fin := fin, ph := .round }

/-- R58: an idle step changes nothing; with a command presented it is the command the word decodes to; it always ends
in a next state. -/
def Obligations.IdleAcceptsThePresentedCommand : Prop :=
  ∀ s : State,
    (s.pins.cmdValid = false → exec .idle s = .next s) ∧
    (s.pins.cmdValid = true → exec .idle s = exec (decodeCmd s.pins.cmd).instr s) ∧
    ∃ t, exec .idle s = .next t

/-! ## Micro-steps: result and frame -/

/-- R86, R87, R88, R89: each round step, in the quartile that selects it, with the message word read little-endian from the
buffer; only `W` and `J` change, and `PH` at round 63. -/
def Obligations.RoundStepsFollowTheirPseudocode : Prop :=
  ∀ s : State, s.ph = .round →
    (s.j.toNat / 16 = 0 → exec .rnd0 s = .next { s with
      w := s.afterRound ((s.w.b &&& s.w.c) ||| (~~~s.w.b &&& s.w.d)) s.j.toNat, j := s.j + 1 }) ∧
    (s.j.toNat / 16 = 1 → exec .rnd1 s = .next { s with
      w := s.afterRound ((s.w.d &&& s.w.b) ||| (~~~s.w.d &&& s.w.c)) ((5 * s.j.toNat + 1) % 16), j := s.j + 1 }) ∧
    (s.j.toNat / 16 = 2 → exec .rnd2 s = .next { s with
      w := s.afterRound (s.w.b ^^^ s.w.c ^^^ s.w.d) ((3 * s.j.toNat + 5) % 16), j := s.j + 1 }) ∧
    (s.j.toNat / 16 = 3 → exec .rnd3 s = .next { s with
      w := s.afterRound (s.w.c ^^^ (s.w.b ||| ~~~s.w.d)) (7 * s.j.toNat % 16)
      j := BitVec.ofNat 6 ((s.j.toNat + 1) % 64)
      ph := if s.j.toNat = 63 then .fold else .round })

/-- R90: the add-back and its three ways out. -/
def Obligations.FoldAddsTheWorkingCopiesBack : Prop :=
  ∀ s : State,
    let sum : Quad := ⟨s.h.a + s.w.a, s.h.b + s.w.b, s.h.c + s.w.c, s.h.d + s.w.d⟩
    (s.fin = .data → exec .fold s = .next { s with h := sum, cnt := s.cnt + 64, ph := .idle }) ∧
    (s.fin = .tailMore → exec .fold s = .next { s with h := sum, ph := .pad2 }) ∧
    (s.fin = .tailLast → exec .fold s = .next { s with h := sum, ph := .emit })

/-- R112 (the clearing of `CNT` is the spec's decision D1, 90_conflicts.md C3): `EMIT` delivers the digest from the old `H` and re-enters the fresh state. -/
def Obligations.EmitDeliversTheDigestAndReenters : Prop :=
  ∀ s : State, Memory.wf s.buf → ∃ m : Memory,
    exec .emit s = .next { s with
      dig := s.h.d ++ s.h.c ++ s.h.b ++ s.h.a, dv := true
      h := ⟨0x67452301, 0xefcdab89, 0x98badcfe, 0x10325476⟩, len := 0, cnt := 0, buf := m, ph := .idle } ∧
    ∀ a, readByte m a = 0

/-! ## One step of the machine -/

/-- R63, R64: the step a state performs is what the decoder reads from its phase and round bits. -/
def Obligations.PhaseBitsSelectTheStep : Prop :=
  ∀ s : State,
    (s.ph = .round → decode (.round (s.ph.code ++ s.j)) = .ok s.select) ∧
    (s.ph ≠ .round → decode (.phase s.ph.code) = .ok s.select)

/-- R58, R63, R64: a step that is no reset runs the instruction decoded from the pattern the state presents, and then only
the pins move on: the host's next levels, or none. -/
def Obligations.StepRunsTheDecodedInstruction : Prop :=
  (∀ (s : State) (t : TableWord) (i : Instr), s.pins.rst = false → s.presents t → decode t = .ok i →
    step s = advance (exec i s)) ∧
  (∀ u : State, advance (.next u) =
    .next { u with pins := u.script.headD ⟨false, false, 0⟩, script := u.script.tail })

/-- R147: reset gives every register its reset value whatever the state and the other inputs were, and the outputs then
read as the rule says. -/
def Obligations.ResetWinsAndGivesTheResetState : Prop :=
  ∀ s : State, s.pins.rst = true → ∃ t : State, step s = .next t ∧
    t.h = ⟨0x67452301, 0xefcdab89, 0x98badcfe, 0x10325476⟩ ∧ t.w = ⟨0, 0, 0, 0⟩ ∧ (∀ a, readByte t.buf a = 0x00) ∧
    t.len = 0 ∧ t.cnt = 0 ∧ t.ph = .idle ∧ t.j = 0 ∧ t.fin = .data ∧ t.dig = 0 ∧ t.dv = false ∧
    t.outputs = ⟨true, 0x1032547698badcfeefcdab8967452301, 0, false⟩

/-- R138: every state has a next state; no step faults and none is refused. -/
def Obligations.EveryStepAnswersANextState : Prop :=
  ∀ s : State, ∃ t, step s = .next t

/-- R107: the complete transition relation of the phase, with the argument of the `START` performed. -/
def Obligations.PhaseTransitionsAreTheTable : Prop :=
  ∀ s t : State, step s = .next t →
    (t.ph, if t.ph = .round ∧ s.ph ≠ .round then some t.fin else none) =
      if s.pins.rst then (.idle, none)
      else match s.ph with
        | .idle =>
          match s.accepted with
          | some (.push _) => if s.len = 63 then (.round, some .data) else (.idle, none)
          | some .final => (.round, some (if s.len.toNat ≤ 55 then .tailLast else .tailMore))
          | some .nop => (.idle, none)
          | some .init => (.idle, none)
          | none => (.idle, none)
        | .round => if s.j = 63 then (.fold, none) else (.round, none)
        | .fold =>
          match s.fin with
          | .data => (.idle, none)
          | .tailMore => (.pad2, none)
          | .tailLast => (.emit, none)
        | .pad2 => (.round, some .tailLast)
        | .emit => (.idle, none)

/-- R58, R91: while busy, what the host presents on the command port has no effect and is not remembered. -/
def Obligations.BusyEngineIgnoresTheCommandPort : Prop :=
  ∀ (s : State) (v : Bool) (c : BitVec 10), s.ph ≠ .idle → s.pins.rst = false →
    step { s with pins := ⟨false, v, c⟩ } = step s ∧ s.accepted = none

/-- R50 (b), R33 item 8: while a block is being compressed no step writes the buffer, `LEN` or `CNT` but `FOLD`'s count. -/
def Obligations.BufferIsStableWhileCompressing : Prop :=
  ∀ s t : State, step s = .next t → s.pins.rst = false → (s.ph = .round ∨ s.ph = .fold) →
    t.buf = s.buf ∧ t.len = s.len ∧ (∀ a, readByte t.buf a = readByte s.buf a) ∧ (s.ph = .round → t.cnt = s.cnt)

/-- R18, R28: `SNAP` is exactly `H`, and it changes only at a reset, at `FOLD`, at `EMIT` and at the acceptance of `INIT`;
after all but `FOLD` it reads the serialized `IV`. -/
def Obligations.SnapshotChangesOnlyAtFoldEmitInit : Prop :=
  ∀ s t : State, step s = .next t →
    t.snap = t.h.d ++ t.h.c ++ t.h.b ++ t.h.a ∧
    (if s.pins.rst ∨ s.ph = .emit ∨ s.accepted = some .init then t.snap = 0x1032547698badcfeefcdab8967452301
     else if s.ph = .fold then t.h = addQuad s.h s.w
     else t.snap = s.snap)

/-- R25: `DIG` is written only by `EMIT`, with `H` before its reset, and by reset. -/
def Obligations.DigestRegisterIsWrittenOnlyByEmit : Prop :=
  ∀ s t : State, step s = .next t →
    t.dig = if s.pins.rst then 0 else if s.ph = .emit then s.h.d ++ s.h.c ++ s.h.b ++ s.h.a else s.dig

/-- R26: when `DV` is set, cleared and kept. -/
def Obligations.DigestValidIsSetByEmitOnly : Prop :=
  ∀ s t : State, step s = .next t →
    t.dv = if s.pins.rst then false
      else if s.ph = .emit then true
      else match s.accepted with
        | some (.push _) => false
        | some .final => false
        | some .init => false
        | some .nop => s.dv
        | none => s.dv

/-- R128: the counter grows by 64 at the `FOLD` of a data block, is cleared by reset, `INIT` and `EMIT`, and moves at no other
time. -/
def Obligations.CounterMovesOnlyAtDataFolds : Prop :=
  ∀ s t : State, step s = .next t →
    t.cnt = if s.pins.rst ∨ s.ph = .emit ∨ s.accepted = some .init then 0
      else if s.ph = .fold ∧ s.fin = .data then s.cnt + 64
      else s.cnt

/-! ## Invariants -/

/-- R33, R35: the invariants hold after reset, and every register has the reset value of R35. -/
def Obligations.ResetStateMeetsTheInvariants : Prop :=
  State.reset.Inv ∧
  State.reset.h = ⟨0x67452301, 0xefcdab89, 0x98badcfe, 0x10325476⟩ ∧ State.reset.w = ⟨0, 0, 0, 0⟩ ∧
  State.reset.len = 0 ∧ State.reset.cnt = 0 ∧ State.reset.ph = .idle ∧ State.reset.j = 0 ∧
  State.reset.fin = .data ∧ State.reset.dig = 0 ∧ State.reset.dv = false ∧ ∀ a, readByte State.reset.buf a = 0

/-- 10_state.md section 7 (R33): every step, from any state that meets the invariants, gives a state that meets them. The spec
marks the invariants as its own inference, "[derived: from rule R35 and the step rules ...]". The canonical form of the
buffer is the model's own (log entry 5), and item 6 is bounded through the whole first tail block, so that the invariants
carry one another. -/
def Obligations.EveryStepKeepsTheInvariants : Prop :=
  State.reset.Inv ∧
  ∀ s t : State, s.Inv → step s = .next t →
    t.Inv ∧ (s.pins.rst = false → (s.ph = .round ∨ s.ph = .fold) → t.buf = s.buf)

/-- R34, R149, R158: reset, `INIT` and `EMIT` each leave an idle engine with the initial stream context, and no byte of the
finished stream in the buffer. -/
def Obligations.ResetInitAndEmitLeaveTheInitialContext : Prop :=
  ∀ s t : State, Memory.wf s.buf → step s = .next t →
    (s.pins.rst = true ∨ s.accepted = some .init ∨ s.ph = .emit) →
    t.ph = .idle ∧ t.fresh ∧ t.acc = [] ∧ (∀ a, readByte t.buf a = 0)

/-! ## Padding and the function level -/

/-- R99, R101: the zero count is the least that leaves 8 bytes of room, and the padded length and layout follow. -/
def Obligations.PaddingFillsOneOrTwoBlocks : Prop :=
  (∀ n ≤ 63, (n + 1 + zeroCount n) % 64 = 56 ∧ (∀ z, (n + 1 + z) % 64 = 56 → zeroCount n ≤ z) ∧
    zeroCount n = if n ≤ 55 then 55 - n else 119 - n) ∧
  ∀ (tail : List Byte) (tb : BitVec 64), tail.length ≤ 63 →
    let len := if tail.length ≤ 55 then 64 else 128
    (pad tail tb).length = len ∧
    ∀ i < len, (pad tail tb)[i]? =
      if i < tail.length then tail[i]?
      else if i = tail.length then some 0x80
      else if i < len - 8 then some 0x00
      else some (tb.extractLsb' (8 * (i - (len - 8))) 8)

/-- R102, R103, R105: after `PAD1` the buffer is the first 64 bytes of `pad(ACC, TB)`, after `PAD2` the bytes 64 to 127. -/
def Obligations.BufferHoldsThePaddingBlocks : Prop :=
  ∀ s t : State, Memory.wf s.buf →
    (exec .pad1 s = .next t → bufBytes t.buf = (pad s.acc (totalBits s.cnt s.len)).take 64) ∧
    (exec .pad2 s = .next t → 56 ≤ s.len.toNat →
      bufBytes t.buf = (pad s.acc (totalBits s.cnt s.len)).drop 64)

/-- R125: the two digests that must match exactly. -/
def Obligations.KnownVectorsMatch : Prop :=
  md5 [] = [0xd4, 0x1d, 0x8c, 0xd9, 0x8f, 0x00, 0xb2, 0x04, 0xe9, 0x80, 0x09, 0x98, 0xec, 0xf8, 0x42, 0x7e] ∧
  md5 [0x61, 0x62, 0x63] = [0x90, 0x01, 0x50, 0x98, 0x3c, 0xd2, 0x4f, 0xb0, 0xd6, 0x96, 0x3f, 0x7d, 0x28, 0xe1, 0x7f, 0x72]

/-! ## Refinement and whole runs -/

/-- 41_block_compressor.md section 3 (R95), which the spec marks as its own inference, "[derived: from rules R84 to R90 and
R93 ...]"; one round per step is the spec's reference (log entry 2). From the state `START` leaves, 64 round steps and one `FOLD` leave `H = compress(BUF, H)`. -/
def Obligations.RoundsAndFoldComputeCompress : Prop :=
  ∀ s : State, s.ph = .round → s.j = 0 → s.w = s.h → s.unreset 65 → ∃ t : State,
    run 65 s = .next t ∧ t.h = compress (bufBytes s.buf) s.h ∧ t.j = 0 ∧ t.buf = s.buf ∧ t.len = s.len ∧
    t.fin = s.fin ∧ t.dig = s.dig ∧ t.dv = s.dv ∧
    t.ph = (match s.fin with | .data => .idle | .tailMore => .pad2 | .tailLast => .emit) ∧
    t.cnt = (match s.fin with | .data => s.cnt + 64 | .tailMore => s.cnt | .tailLast => s.cnt)

/-- 43_digest_engine.md section 1 (R107), whose bound the spec marks as its own inference, "[derived: from
`70_reset_and_hazards.md` rule R159]" (log entry 2). Every path from a non-idle phase reaches `IDLE` in at most 132 further steps, without any input from the host. -/
def Obligations.BusyEngineBecomesReady : Prop :=
  ∀ s : State, s.ph ≠ .idle → s.unreset 132 → ∃ n t, n ≤ 132 ∧ run n s = .next t ∧ t.ready = true

/-- 43_digest_engine.md section 2 (R113), which the spec marks as its own inference, "[derived: from rules R108 to R112 ...]".
What one accepted command does, from the state that accepts it to the next idle state, on the stream context and
the outputs. The number of steps is left open (R160). -/
def Obligations.AcceptedCommandRefinesTheCommandLevel : Prop :=
  ∀ (s : State) (c : Command), s.Inv → s.offered c → s.unreset 133 → ∃ n t,
    run (n + 1) s = .next t ∧ t.ph = .idle ∧ t.view = s.view.exec c ∧
    ∀ k < n, ∃ u, run (k + 1) s = .next u ∧ u.ph ≠ .idle

/-- R51, R161: between two idle states the command-level view is a function of the accepted commands alone: idle steps,
`NOP`s and commands presented while busy leave no trace. -/
def Obligations.IdleViewIsTheFoldOfAcceptedCommands : Prop :=
  ∀ (n : Nat) (s t : State), s.Inv → s.ph = .idle → s.unreset n → run n s = .next t → t.ph = .idle →
    t.view = s.view.run (acceptedIn n s)

/-- 10_state.md section 7 (R34), which the spec marks as its own inference, "[derived: from rules R19, R20, R23, R24 ...]".
From two idle states with the same stream context, whatever their `W`, `J`, `FIN`, dead buffer bytes, `DIG` and
`DV`, the same host sees the same `ready` and `SNAP` at every step, and the same `DIG` and `DV` once an `EMIT` has happened. -/
def Obligations.OutputsDependOnTheStreamContextOnly : Prop :=
  ∀ (s s' : State), Memory.wf s.buf → Memory.wf s'.buf → s.ph = .idle → s'.ph = .idle →
    s.h = s'.h → s.acc = s'.acc → s.cnt = s'.cnt → s.pins = s'.pins → s.script = s'.script →
    ∀ n, ∃ t t', run n s = .next t ∧ run n s' = .next t' ∧ t.ready = t'.ready ∧ t.snap = t'.snap ∧
      ((∃ k < n, ∃ u, run k s = .next u ∧ u.ph = .emit ∧ u.pins.rst = false) → t.dig = t'.dig ∧ t.dv = t'.dv)

/-- 70_reset_and_hazards.md section 4 (R159): the step counts of the reference micro-architecture, which is the one modelled
(log entry 2), and which the spec marks as its own inference, "[derived: from `43_digest_engine.md` rule R107]". R160's words make these
counts not normative (R160). -/
def Obligations.CommandsTakeTheTabledStepCounts : Prop :=
  ∀ (s : State) (c : Command), s.offered c → s.unreset 133 →
    (∃ t, run (stepCount s.len c) s = .next t ∧ t.ready = true) ∧
    ∀ k, 0 < k → k < stepCount s.len c → ∃ u, run k s = .next u ∧ u.ready = false

/-- 43_digest_engine.md section 5 (R124), whose sentence on the command sequence the spec marks as its own inference,
"[derived: from rule R113 ...]". At the command level, from `ctx0`, pushing a sequence and finalizing leaves its digest. -/
def Obligations.PushesAndFinalComputeMd5 : Prop :=
  ∀ (x : Idle) (s : List Byte), x.h = iv → x.acc = [] → x.cnt = 0 →
    (x.run (s.map .push ++ [.final])).dig = vec128 (md5 s) ∧ (x.run (s.map .push ++ [.final])).dv = true

/-- R117, R121: `CALC` gives `md5(s)` whatever the stream in progress, and so does any way of splitting `s` into updates. -/
def Obligations.CalculateIsMd5HoweverSplit : Prop :=
  ∀ (x : Idle) (chunks : List (List Byte)),
    (x.run (LibCall.calculate chunks.flatten).expand).dig = vec128 (md5 chunks.flatten) ∧
    (x.run (LibCall.new.expand ++ (chunks.flatMap fun c => (LibCall.update c).expand) ++ LibCall.finalize.expand)).dig =
      vec128 (md5 chunks.flatten)

/-- 43_digest_engine.md section 5 (R127, R128), which the spec marks as its own inference, "[derived: from rule R110]". At the
command level, the fixed buffer holds the last `N mod 64` bytes, the counter the rest, and the chaining value is over
the whole blocks in order. -/
def Obligations.FixedBufferEqualsTheGrowableAccumulator : Prop :=
  ∀ (x : Idle) (s : List Byte), x.h = iv → x.acc = [] → x.cnt = 0 →
    let y := x.run (s.map .push)
    y.acc = s.drop (64 * (s.length / 64)) ∧ y.cnt = BitVec.ofNat 64 (64 * (s.length / 64)) ∧
    y.h = compressAll s iv ∧
    8 * add64 y.cnt (BitVec.ofNat 64 y.acc.length) = BitVec.ofNat 64 (8 * s.length)

/-- R120: `FINAL` accepted when the context is the initial one gives the digest of the empty sequence, so a second `FINAL` in
a row does, whatever stream the first one ended. -/
def Obligations.SecondFinalDigestsTheEmptySequence : Prop :=
  (∀ s : State, Memory.wf s.buf → s.fresh → s.offered .final → s.unreset 133 → ∃ n t,
    run (n + 1) s = .next t ∧ (∀ k < n, ∃ u, run (k + 1) s = .next u ∧ u.ready = false) ∧
    t.ready = true ∧ t.dv = true ∧ t.dig = 0x7e42f8ec980980e904b2008fd98c1dd4) ∧
  (∀ x : Idle, ((x.exec .final).exec .final).dig = 0x7e42f8ec980980e904b2008fd98c1dd4)

/-- 10_state.md R26, R28 and 43_digest_engine.md section 5 (R124, R128) for whole runs of the machine, the spec's own
inference: from a fresh engine, at every idle point of every run without reset, `H`, `ACC` and `CNT + LEN` are those of the
stream pushed since the last `INIT` or `FINAL`, and `DV = 1` says that `DIG` is the md5 of the stream the most recent
`FINAL` ended, with nothing but `NOP` accepted since. -/
def Obligations.EveryValidDigestIsTheMd5OfItsStream : Prop :=
  ∀ (n : Nat) (s t : State), s.Inv → s.ph = .idle → s.fresh → s.dv = false → s.unreset n →
    run n s = .next t → t.ph = .idle →
    let cs := acceptedIn n s
    let stream := openStream cs
    t.h = compressAll stream iv ∧ t.acc = stream.drop (64 * (stream.length / 64)) ∧
    t.cnt + t.len.setWidth 64 = BitVec.ofNat 64 stream.length ∧
    (t.dv = true → ∃ pre k, cs = pre ++ [.final] ++ List.replicate k .nop ∧ t.dig = vec128 (md5 (openStream pre)))
end

