-- ==== Sys2Proof/Laws/Memory.lean ====
section
/-! SUPPORT. The laws of the buffer: what every access reads and writes, and that every write keeps the canonical form.
Later proofs cite these and do not unfold the list. -/

namespace Sys2Proof.Machine

/-! ## The list -/

theorem Memory.lookup_of_keys_above (m : Memory) (a : Nat) (h : ∀ c ∈ m, a < c.1) :
    Memory.lookup m a = Memory.unlisted := by
  induction m with
  | nil => rfl
  | cons c rest ih =>
    obtain ⟨k, v⟩ := c
    have hk : a < k := h (k, v) (by simp)
    have : k ≠ a := by omega
    simp only [Memory.lookup, this, if_false]
    exact ih fun c hc => h c (by simp [hc])

/-- Read after insert, at the same key and at every other. -/
theorem Memory.lookup_insert (m : Memory) (a k : Nat) (b : Byte) (h : m.Pairwise (fun x y => x.1 < y.1)) :
    Memory.lookup (Memory.insert m a b) k = if k = a then b else Memory.lookup m k := by
  induction m with
  | nil => by_cases hb : b = Memory.unlisted <;> by_cases hk : k = a <;> simp_all [Memory.insert, Memory.lookup, eq_comm]
  | cons c rest ih =>
    obtain ⟨k', v⟩ := c
    obtain ⟨habove, hrest⟩ := List.pairwise_cons.mp h
    have gone : ∀ x, x ≤ k' → Memory.lookup rest x = Memory.unlisted := fun x hx =>
      Memory.lookup_of_keys_above rest x fun c hc => lt_of_le_of_lt hx (habove c hc)
    rcases Nat.lt_trichotomy k' a with hlt | rfl | hgt
    · simp only [Memory.insert, hlt, if_true, Memory.lookup, ih hrest]
      by_cases hk : k' = k <;> by_cases hka : k = a <;> simp_all
    · by_cases hb : b = Memory.unlisted <;> by_cases hk : k = k'
      · subst hk; simp [Memory.insert, hb, gone k le_rfl]
      · simp [Memory.insert, Memory.lookup, hb, hk, Ne.symm hk]
      · subst hk; simp [Memory.insert, Memory.lookup, hb]
      · simp [Memory.insert, Memory.lookup, hb, hk, Ne.symm hk]
    · have h1 : ¬ k' < a := by omega
      have h2 : ¬ k' = a := by omega
      by_cases hb : b = Memory.unlisted <;> by_cases hk : k = a
      · subst hk; simp [Memory.insert, Memory.lookup, hb, h1, h2, gone k hgt.le]
      · simp [Memory.insert, Memory.lookup, hb, h1, h2, hk]
      · subst hk; simp [Memory.insert, Memory.lookup, hb, h1, h2]
      · simp [Memory.insert, Memory.lookup, hb, h1, h2, hk, Ne.symm hk]

theorem Memory.mem_insert (m : Memory) (a : Nat) (b : Byte) (c : Host.Cell) (h : c ∈ Memory.insert m a b) :
    c ∈ m ∨ (c = (a, b) ∧ b ≠ Memory.unlisted) := by
  induction m with
  | nil => by_cases hb : b = Memory.unlisted <;> simp_all [Memory.insert]
  | cons c' rest ih =>
    obtain ⟨k, v⟩ := c'
    simp only [Memory.insert] at h
    split at h
    · rcases List.mem_cons.mp h with h | h
      · exact .inl (by simp [h])
      · exact (ih h).imp (fun h => by simp [h]) id
    · split at h
      · split at h
        · exact .inl (by simp [h])
        · rcases List.mem_cons.mp h with h | h
          · exact .inr ⟨h, ‹_›⟩
          · exact .inl (by simp [h])
      · split at h
        · exact .inl h
        · rcases List.mem_cons.mp h with h | h
          · exact .inr ⟨h, ‹_›⟩
          · exact .inl h

theorem Memory.insert_pairwise (m : Memory) (a : Nat) (b : Byte) (h : m.Pairwise (fun x y => x.1 < y.1)) :
    (Memory.insert m a b).Pairwise (fun x y => x.1 < y.1) := by
  induction m with
  | nil => by_cases hb : b = Memory.unlisted <;> simp [Memory.insert, hb]
  | cons c rest ih =>
    obtain ⟨k, v⟩ := c
    obtain ⟨habove, hrest⟩ := List.pairwise_cons.mp h
    simp only [Memory.insert]
    split
    · refine List.pairwise_cons.mpr ⟨fun c hc => ?_, ih hrest⟩
      rcases Memory.mem_insert rest a b c hc with hc | ⟨rfl, -⟩
      · exact habove c hc
      · assumption
    · split
      · split
        · exact hrest
        · subst_vars
          exact List.pairwise_cons.mpr ⟨habove, hrest⟩
      · split
        · exact h
        · refine List.pairwise_cons.mpr ⟨fun c hc => ?_, h⟩
          rcases List.mem_cons.mp hc with rfl | hc
          · simp only; omega
          · exact lt_trans (by simp only; omega) (habove c hc)

/-- The canonical form, spelled out. -/
theorem Memory.wf_iff (m : Memory) : Memory.wf m = true ↔
    m.Pairwise (fun x y => x.1 < y.1) ∧ ∀ c ∈ m, c.1 < 64 ∧ c.2 ≠ Memory.unlisted := by
  simp [Memory.wf]

/-- Every insert at an offset of the buffer keeps the canonical form. -/
theorem Memory.insert_wf (m : Memory) (a : Nat) (b : Byte) (h : Memory.wf m) (ha : a < 64) :
    Memory.wf (Memory.insert m a b) := by
  rw [Memory.wf_iff] at h ⊢
  refine ⟨Memory.insert_pairwise m a b h.1, fun c hc => ?_⟩
  rcases Memory.mem_insert m a b c hc with hc | ⟨rfl, hb⟩
  · exact h.2 c hc
  · exact ⟨ha, hb⟩

/-- Equal memories are equal data: two canonical lists that read the same everywhere are the same list. -/
theorem Memory.ext_of_wf (m m' : Memory) (h : Memory.wf m) (h' : Memory.wf m')
    (hr : ∀ k, Memory.lookup m k = Memory.lookup m' k) : m = m' := by
  rw [Memory.wf_iff] at h h'
  induction m generalizing m' with
  | nil =>
    cases m' with
    | nil => rfl
    | cons c rest =>
      obtain ⟨k, v⟩ := c
      have := hr k
      simp only [Memory.lookup, if_true] at this
      exact absurd this.symm (h'.2 (k, v) (by simp)).2
  | cons c rest ih =>
    obtain ⟨k, v⟩ := c
    obtain ⟨habove, hrest⟩ := List.pairwise_cons.mp h.1
    have hv := (h.2 (k, v) (by simp)).2
    cases m' with
    | nil =>
      have := hr k
      simp only [Memory.lookup, if_true] at this
      exact absurd this hv
    | cons c' rest' =>
      obtain ⟨k', v'⟩ := c'
      obtain ⟨habove', hrest'⟩ := List.pairwise_cons.mp h'.1
      have hv' := (h'.2 (k', v') (by simp)).2
      have hk : k = k' := by
        rcases Nat.lt_trichotomy k k' with hlt | heq | hgt
        · have := hr k
          rw [Memory.lookup_of_keys_above ((k', v') :: rest') k] at this
          · simp only [Memory.lookup, if_true] at this
            exact absurd this hv
          · intro c hc
            rcases List.mem_cons.mp hc with rfl | hc
            · exact hlt
            · exact lt_trans hlt (habove' c hc)
        · exact heq
        · have := hr k'
          rw [Memory.lookup_of_keys_above ((k, v) :: rest) k'] at this
          · simp only [Memory.lookup, if_true] at this
            exact absurd this.symm hv'
          · intro c hc
            rcases List.mem_cons.mp hc with rfl | hc
            · exact hgt
            · exact lt_trans hgt (habove c hc)
      subst hk
      have hvv : v = v' := by simpa [Memory.lookup] using hr k
      subst hvv
      congr 1
      refine ih rest' ⟨hrest, fun c hc => h.2 c (by simp [hc])⟩ ⟨hrest', fun c hc => h'.2 c (by simp [hc])⟩ fun x => ?_
      by_cases hx : k = x
      · subst hx
        rw [Memory.lookup_of_keys_above rest k habove, Memory.lookup_of_keys_above rest' k habove']
      · simpa [Memory.lookup, hx] using hr x

/-! ## The accesses -/

@[simp] theorem readByte_nil (a : Offset) : readByte [] a = 0 := rfl

theorem Memory.wf_nil : Memory.wf [] := rfl

/-- R43, R44: a byte read after a byte write. -/
theorem readByte_writeByte (m : Memory) (a k : Offset) (b : Byte) (h : Memory.wf m) :
    readByte (writeByte m a b) k = if k = a then b else readByte m k := by
  simp only [readByte, writeByte, Memory.lookup_insert m a.toNat k.toNat b ((Memory.wf_iff m).mp h).1, BitVec.toNat_inj]

theorem writeByte_wf (m : Memory) (a : Offset) (b : Byte) (h : Memory.wf m) : Memory.wf (writeByte m a b) :=
  Memory.insert_wf m a.toNat b h a.isLt

/-- Two canonical buffers that read the same at every offset are equal. -/
theorem buffer_ext (m m' : Memory) (h : Memory.wf m) (h' : Memory.wf m') (hr : ∀ a, readByte m a = readByte m' a) :
    m = m' := by
  refine Memory.ext_of_wf m m' h h' fun k => ?_
  by_cases hk : k < 64
  · have := hr (BitVec.ofNat 6 k)
    simpa [readByte, Nat.mod_eq_of_lt hk] using this
  · have above : ∀ m : Memory, Memory.wf m → Memory.lookup m k = Memory.unlisted := by
      intro m hm
      rw [Memory.wf_iff] at hm
      induction m with
      | nil => rfl
      | cons c rest ih =>
        obtain ⟨k', v⟩ := c
        have : k' ≠ k := by have := (hm.2 (k', v) (by simp)).1; simp only at this; omega
        simp only [Memory.lookup, this, if_false]
        exact ih ⟨(List.pairwise_cons.mp hm.1).2, fun c hc => hm.2 c (by simp [hc])⟩
    rw [above m h, above m' h']

/-- A run of byte writes reads, at each offset, the byte written there, or what was there. -/
theorem readByte_foldl_write (l : List Nat) (f : Nat → Offset) (g : Nat → Byte) (m : Memory) (h : Memory.wf m)
    (hf : ∀ i ∈ l, ∀ j ∈ l, f i = f j → i = j) (k : Offset) :
    Memory.wf (l.foldl (fun acc i => writeByte acc (f i) (g i)) m) ∧
    (∀ i ∈ l, k = f i → readByte (l.foldl (fun acc i => writeByte acc (f i) (g i)) m) k = g i) ∧
    ((∀ i ∈ l, k ≠ f i) → readByte (l.foldl (fun acc i => writeByte acc (f i) (g i)) m) k = readByte m k) := by
  induction l generalizing m with
  | nil => exact ⟨h, by simp, fun _ => rfl⟩
  | cons x rest ih =>
    have hw := writeByte_wf m (f x) (g x) h
    obtain ⟨wf, hit, miss⟩ := ih (writeByte m (f x) (g x)) hw
      (fun i hi j hj => hf i (by simp [hi]) j (by simp [hj]))
    refine ⟨wf, fun i hi hk => ?_, fun hk => ?_⟩
    · by_cases hin : ∃ j ∈ rest, k = f j
      · obtain ⟨j, hj, hkj⟩ := hin
        have : i = j := hf i hi j (by simp [hj]) (hk ▸ hkj)
        subst this
        exact hit i hj hk
      · have hne : ∀ j ∈ rest, k ≠ f j := fun j hj e => hin ⟨j, hj, e⟩
        have hix : i = x := by
          rcases List.mem_cons.mp hi with e | e
          · exact e
          · exact absurd hk (hne i e)
        subst hix
        rw [List.foldl_cons, miss hne, readByte_writeByte m (f i) k (g i) h, if_pos hk]
    · have hx : k ≠ f x := hk x (by simp)
      rw [List.foldl_cons, miss fun j hj => hk j (by simp [hj]), readByte_writeByte m (f x) k (g x) h, if_neg hx]

theorem zeroFill_wf (m : Memory) (i k : Nat) (h : Memory.wf m) : Memory.wf (zeroFill m i k) := by
  unfold zeroFill
  generalize List.range' i (k - i) = l
  induction l generalizing m with
  | nil => exact h
  | cons x rest ih => exact ih _ (writeByte_wf m _ _ h)

/-- R44: the zero fill of `[i, k)`. -/
theorem readByte_zeroFill (m : Memory) (i k : Nat) (a : Offset) (h : Memory.wf m) (hk : k ≤ 64) :
    readByte (zeroFill m i k) a = if i ≤ a.toNat ∧ a.toNat < k then 0 else readByte m a := by
  have inj : ∀ x ∈ List.range' i (k - i), ∀ y ∈ List.range' i (k - i),
      BitVec.ofNat 6 x = BitVec.ofNat 6 y → x = y := by
    intro x hx y hy e
    rw [List.mem_range'_1] at hx hy
    have := congrArg BitVec.toNat e
    simp only [BitVec.toNat_ofNat] at this
    omega
  obtain ⟨-, hit, miss⟩ := readByte_foldl_write (List.range' i (k - i)) (BitVec.ofNat 6) (fun _ => 0x00) m h inj a
  split
  · refine hit a.toNat ?_ (by simp)
    rw [List.mem_range'_1]
    omega
  · refine miss fun x hx e => ?_
    rw [List.mem_range'_1] at hx
    have := congrArg BitVec.toNat e
    simp only [BitVec.toNat_ofNat] at this
    omega

theorem memWrite8_wf (m : Memory) (a : Offset) (v : BitVec 64) (h : Memory.wf m) : Memory.wf (memWrite8 m a v) := by
  unfold memWrite8
  generalize List.range 8 = l
  induction l generalizing m with
  | nil => exact h
  | cons x rest ih => exact ih _ (writeByte_wf m _ _ h)

/-- R44: the eight-byte write at offset 56, the only one the rules ask for. -/
theorem readByte_memWrite8 (m : Memory) (v : BitVec 64) (a : Offset) (h : Memory.wf m) :
    readByte (memWrite8 m 56 v) a =
      if 56 ≤ a.toNat then v.extractLsb' (8 * (a.toNat - 56)) 8 else readByte m a := by
  have inj : ∀ x ∈ List.range 8, ∀ y ∈ List.range 8,
      (56 : Offset) + BitVec.ofNat 6 x = 56 + BitVec.ofNat 6 y → x = y := by decide
  obtain ⟨-, hit, miss⟩ := readByte_foldl_write (List.range 8) (fun i => 56 + BitVec.ofNat 6 i)
    (fun i => v.extractLsb' (8 * i) 8) m h inj a
  have ha := a.isLt
  split
  · refine hit (a.toNat - 56) (by simp; omega) ?_
    apply BitVec.eq_of_toNat_eq
    simp [BitVec.toNat_add, BitVec.toNat_ofNat]
    omega
  · refine miss fun x hx e => ?_
    have hx' : x < 8 := by simpa using hx
    have := congrArg BitVec.toNat e
    simp [BitVec.toNat_add, BitVec.toNat_ofNat] at this
    omega

end Sys2Proof.Machine
end

