-- ==== Sys2Proof/Laws/Ops.lean ====
section
/-! SUPPORT. The laws of the arithmetic and of the byte sequences, in the library's terms. -/

namespace Sys2Proof.Machine

/-- R14: `rotl32` is the library's left rotation. -/
theorem rotl32_eq_rotateLeft (x : Word) (s : BitVec 5) : rotl32 x s = x.rotateLeft s.toNat := by
  have := s.isLt
  simp [rotl32, BitVec.rotateLeft_def, Nat.mod_eq_of_lt this]

/-- R104: the bit count in naturals. -/
theorem totalBits_eq_ofNat (cnt : BitVec 64) (len : BitVec 6) :
    totalBits cnt len = BitVec.ofNat 64 (8 * (cnt.toNat + len.toNat)) := by
  simp only [totalBits, add64]
  bv_omega

/-- The unsigned value of a concatenation, as a sum. -/
theorem toNat_append_eq_sum {m n : Nat} (x : BitVec m) (y : BitVec n) : (x ++ y).toNat = x.toNat * 2 ^ n + y.toNat := by
  rw [BitVec.toNat_append, ← Nat.shiftLeft_add_eq_or_of_lt y.isLt, Nat.shiftLeft_eq]

@[simp] theorem bufBytes_length (m : Memory) : (bufBytes m).length = 64 := by simp [bufBytes]

theorem bufBytes_getD (m : Memory) (i : Nat) (h : i < 64) : (bufBytes m).getD i 0 = readByte m (BitVec.ofNat 6 i) := by
  simp [bufBytes, h]

@[simp] theorem bytes64_length (v : BitVec 64) : (bytes64 v).length = 8 := by simp [bytes64]

@[simp] theorem State.acc_length (s : State) : s.acc.length = s.len.toNat := by simp [State.acc]

end Sys2Proof.Machine
end

