-- ==== Sys2Proof/Laws/PerInstr.lean ====
section
/-! SUPPORT. Families of statements about instructions as syntax, one lemma per constructor. -/

namespace Sys2Proof.Laws

/-! ## The pattern of an instruction is its own row's -/

/-- The pattern the encoder gives matches exactly one row of the opcode table, the instruction's own; an action has
no pattern (R71). -/
def RowOf.Statement (i : Instr) : Prop :=
  ((encode i).toList.flatMap fun t => (opcodeRows.filter (·.matchesWord t)).map (·.mnemonic)) =
    if i.wf then [i.mnemonic] else []

namespace RowOf

theorem nop : Statement .nop := by unfold Statement; decide
/-- The one pattern with an operand: all 256 bytes stay within `PUSH`'s row. -/
theorem push (b : Byte) : Statement (.push b) := by
  have low : ∀ b : Byte, (1#2 ++ b).toNat &&& 0x300 = 0x100 := by decide
  simp [Statement, encode, encodeCmd, opcodeRows, Row.matchesWord, low, Instr.wf, Instr.mnemonic]
theorem final : Statement .final := by unfold Statement; decide
theorem init : Statement .init := by unfold Statement; decide
theorem idle : Statement .idle := by unfold Statement; decide
theorem rnd0 : Statement .rnd0 := by unfold Statement; decide
theorem rnd1 : Statement .rnd1 := by unfold Statement; decide
theorem rnd2 : Statement .rnd2 := by unfold Statement; decide
theorem rnd3 : Statement .rnd3 := by unfold Statement; decide
theorem fold : Statement .fold := by unfold Statement; decide
theorem pad2 : Statement .pad2 := by unfold Statement; decide
theorem emit : Statement .emit := by unfold Statement; decide
theorem start (fin : FinCode) : Statement (.start fin) := rfl
theorem pad1 : Statement .pad1 := rfl

end RowOf

end Sys2Proof.Laws
end

