-- ==== Sys2Proof/Laws/State.lean ====
section
/-! SUPPORT. One lemma per field per shared update of State, each true by definition. -/

namespace Sys2Proof.Machine

variable (s : State) (fin : FinCode)

/-! ## `START` -/

@[simp] theorem State.startBlock_h : (s.startBlock fin).h = s.h := rfl
@[simp] theorem State.startBlock_w : (s.startBlock fin).w = s.h := rfl
@[simp] theorem State.startBlock_buf : (s.startBlock fin).buf = s.buf := rfl
@[simp] theorem State.startBlock_len : (s.startBlock fin).len = s.len := rfl
@[simp] theorem State.startBlock_cnt : (s.startBlock fin).cnt = s.cnt := rfl
@[simp] theorem State.startBlock_ph : (s.startBlock fin).ph = .round := rfl
@[simp] theorem State.startBlock_j : (s.startBlock fin).j = 0 := rfl
@[simp] theorem State.startBlock_fin : (s.startBlock fin).fin = fin := rfl
@[simp] theorem State.startBlock_dig : (s.startBlock fin).dig = s.dig := rfl
@[simp] theorem State.startBlock_dv : (s.startBlock fin).dv = s.dv := rfl
@[simp] theorem State.startBlock_pins : (s.startBlock fin).pins = s.pins := rfl
@[simp] theorem State.startBlock_script : (s.startBlock fin).script = s.script := rfl

/-! ## The fresh context -/

@[simp] theorem State.freshContext_h : s.freshContext.h = iv := rfl
@[simp] theorem State.freshContext_w : s.freshContext.w = s.w := rfl
@[simp] theorem State.freshContext_buf : s.freshContext.buf = zeroFill s.buf 0 64 := by simp only [State.freshContext]
@[simp] theorem State.freshContext_len : s.freshContext.len = 0 := rfl
@[simp] theorem State.freshContext_cnt : s.freshContext.cnt = 0 := rfl
@[simp] theorem State.freshContext_ph : s.freshContext.ph = s.ph := rfl
@[simp] theorem State.freshContext_j : s.freshContext.j = s.j := rfl
@[simp] theorem State.freshContext_fin : s.freshContext.fin = s.fin := rfl
@[simp] theorem State.freshContext_dig : s.freshContext.dig = s.dig := rfl
@[simp] theorem State.freshContext_dv : s.freshContext.dv = s.dv := rfl
@[simp] theorem State.freshContext_pins : s.freshContext.pins = s.pins := rfl
@[simp] theorem State.freshContext_script : s.freshContext.script = s.script := rfl

/-! ## `DV <- 0` -/

@[simp] theorem State.clearValid_h : s.clearValid.h = s.h := rfl
@[simp] theorem State.clearValid_w : s.clearValid.w = s.w := rfl
@[simp] theorem State.clearValid_buf : s.clearValid.buf = s.buf := rfl
@[simp] theorem State.clearValid_len : s.clearValid.len = s.len := rfl
@[simp] theorem State.clearValid_cnt : s.clearValid.cnt = s.cnt := rfl
@[simp] theorem State.clearValid_ph : s.clearValid.ph = s.ph := rfl
@[simp] theorem State.clearValid_j : s.clearValid.j = s.j := rfl
@[simp] theorem State.clearValid_fin : s.clearValid.fin = s.fin := rfl
@[simp] theorem State.clearValid_dig : s.clearValid.dig = s.dig := rfl
@[simp] theorem State.clearValid_dv : s.clearValid.dv = false := rfl
@[simp] theorem State.clearValid_pins : s.clearValid.pins = s.pins := rfl
@[simp] theorem State.clearValid_script : s.clearValid.script = s.script := rfl

/-! ## Reset -/

@[simp] theorem State.resetEngine_h : s.resetEngine.h = iv := rfl
@[simp] theorem State.resetEngine_w : s.resetEngine.w = ⟨0, 0, 0, 0⟩ := rfl
@[simp] theorem State.resetEngine_buf : s.resetEngine.buf = [] := rfl
@[simp] theorem State.resetEngine_len : s.resetEngine.len = 0 := rfl
@[simp] theorem State.resetEngine_cnt : s.resetEngine.cnt = 0 := rfl
@[simp] theorem State.resetEngine_ph : s.resetEngine.ph = .idle := rfl
@[simp] theorem State.resetEngine_j : s.resetEngine.j = 0 := rfl
@[simp] theorem State.resetEngine_fin : s.resetEngine.fin = .data := rfl
@[simp] theorem State.resetEngine_dig : s.resetEngine.dig = 0 := rfl
@[simp] theorem State.resetEngine_dv : s.resetEngine.dv = false := rfl
@[simp] theorem State.resetEngine_pins : s.resetEngine.pins = s.pins := rfl
@[simp] theorem State.resetEngine_script : s.resetEngine.script = s.script := rfl

/-! ## The clock edge -/

@[simp] theorem State.nextPins_h : s.nextPins.h = s.h := by unfold State.nextPins; split <;> rfl
@[simp] theorem State.nextPins_w : s.nextPins.w = s.w := by unfold State.nextPins; split <;> rfl
@[simp] theorem State.nextPins_buf : s.nextPins.buf = s.buf := by unfold State.nextPins; split <;> rfl
@[simp] theorem State.nextPins_len : s.nextPins.len = s.len := by unfold State.nextPins; split <;> rfl
@[simp] theorem State.nextPins_cnt : s.nextPins.cnt = s.cnt := by unfold State.nextPins; split <;> rfl
@[simp] theorem State.nextPins_ph : s.nextPins.ph = s.ph := by unfold State.nextPins; split <;> rfl
@[simp] theorem State.nextPins_j : s.nextPins.j = s.j := by unfold State.nextPins; split <;> rfl
@[simp] theorem State.nextPins_fin : s.nextPins.fin = s.fin := by unfold State.nextPins; split <;> rfl
@[simp] theorem State.nextPins_dig : s.nextPins.dig = s.dig := by unfold State.nextPins; split <;> rfl
@[simp] theorem State.nextPins_dv : s.nextPins.dv = s.dv := by unfold State.nextPins; split <;> rfl
@[simp] theorem State.nextPins_pins : s.nextPins.pins = s.script.headD Pins.quiet := by
  unfold State.nextPins; split <;> simp_all
@[simp] theorem State.nextPins_script : s.nextPins.script = s.script.tail := by
  unfold State.nextPins; split <;> simp_all

/-! ## `PAD1` -/

@[simp] theorem State.padFirst_h : s.padFirst.h = s.h := by simp only [State.padFirst]; split <;> rfl
@[simp] theorem State.padFirst_w : s.padFirst.w = s.h := by simp only [State.padFirst]; split <;> rfl
@[simp] theorem State.padFirst_len : s.padFirst.len = s.len := by simp only [State.padFirst]; split <;> rfl
@[simp] theorem State.padFirst_cnt : s.padFirst.cnt = s.cnt := by simp only [State.padFirst]; split <;> rfl
@[simp] theorem State.padFirst_ph : s.padFirst.ph = .round := by simp only [State.padFirst]; split <;> rfl
@[simp] theorem State.padFirst_j : s.padFirst.j = 0 := by simp only [State.padFirst]; split <;> rfl
@[simp] theorem State.padFirst_fin :
    s.padFirst.fin = if s.len.toNat ≤ 55 then .tailLast else .tailMore := by simp only [State.padFirst]; split <;> rfl
@[simp] theorem State.padFirst_dig : s.padFirst.dig = s.dig := by simp only [State.padFirst]; split <;> rfl
@[simp] theorem State.padFirst_dv : s.padFirst.dv = s.dv := by simp only [State.padFirst]; split <;> rfl
@[simp] theorem State.padFirst_pins : s.padFirst.pins = s.pins := by simp only [State.padFirst]; split <;> rfl
@[simp] theorem State.padFirst_script : s.padFirst.script = s.script := by simp only [State.padFirst]; split <;> rfl

/-- `PAD1` keeps the buffer's canonical form. -/
theorem State.padFirst_wf (h : Memory.wf s.buf) : Memory.wf s.padFirst.buf := by
  have hm : Memory.wf (zeroFill (writeByte s.buf s.len 0x80) (s.len.toNat + 1) 64) :=
    zeroFill_wf _ _ _ (writeByte_wf _ _ _ h)
  simp only [State.padFirst]
  split <;> simp only [State.startBlock_buf]
  · exact memWrite8_wf _ _ _ hm
  · exact hm

/-- The fresh context empties the list. -/
theorem State.freshContext_buf_eq (h : Memory.wf s.buf) : s.freshContext.buf = [] := by
  rw [State.freshContext_buf]
  refine buffer_ext _ _ (zeroFill_wf _ _ _ h) Memory.wf_nil fun a => ?_
  rw [readByte_zeroFill _ _ _ _ h le_rfl]
  have := a.isLt
  simp only [readByte_nil]
  split
  · rfl
  · omega

end Sys2Proof.Machine
end

