-- ==== Sys2Proof/Laws/Step.lean ====
section
/-! SUPPORT. What an instruction and a step can do, said once: each answers a next state, and which. -/

namespace Sys2Proof.Machine

/-! ## Selection -/

/-- A round step is one of the four. -/
theorem roundInstr_cases (q : BitVec 2) :
    (q = 0 ∧ roundInstr q = .rnd0) ∨ (q = 1 ∧ roundInstr q = .rnd1) ∨
    (q = 2 ∧ roundInstr q = .rnd2) ∨ (q = 3 ∧ roundInstr q = .rnd3) := by
  revert q; decide

@[simp] theorem selectStep_idle (j : BitVec 6) : selectStep .idle j = .idle := rfl
@[simp] theorem selectStep_round (j : BitVec 6) : selectStep .round j = roundInstr (quartile j) := rfl
@[simp] theorem selectStep_fold (j : BitVec 6) : selectStep .fold j = .fold := rfl
@[simp] theorem selectStep_pad2 (j : BitVec 6) : selectStep .pad2 j = .pad2 := rfl
@[simp] theorem selectStep_emit (j : BitVec 6) : selectStep .emit j = .emit := rfl

/-- Accepting a word is running the command it decodes to. -/
theorem accept_eq (w : BitVec 10) (s : State) : accept w s = exec (decodeCmd w).instr s := by
  simp only [accept]
  cases decodeCmd w <;> rfl

/-! ## The meanings answer a next state -/

/-- Round 63 lies in the last quartile. -/
theorem quartile_63 : quartile 63 = 3 := by decide

/-- The round step a state selects computes `round` on the message words of the buffer, steps the index, and ends the
rounds at 63. -/
theorem exec_roundInstr (s : State) (h : s.ph = .round) :
    exec (roundInstr (quartile s.j)) s = .next { s with
      w := md5Round s.j s.w (msgWord s.buf)
      j := s.j + 1
      ph := if s.j = 63 then .fold else .round } := by
  have h63 : quartile s.j ≠ 3 → s.j ≠ 63 := fun hq e => hq (e ▸ quartile_63)
  rcases roundInstr_cases (quartile s.j) with ⟨hq, hi⟩ | ⟨hq, hi⟩ | ⟨hq, hi⟩ | ⟨hq, hi⟩
  · have hj := h63 (by rw [hq]; decide)
    rw [hi]
    simpa [exec, execRnd0, md5Round, hq, h] using hj
  · have hj := h63 (by rw [hq]; decide)
    rw [hi]
    simpa [exec, execRnd1, md5Round, hq, h] using hj
  · have hj := h63 (by rw [hq]; decide)
    rw [hi]
    simpa [exec, execRnd2, md5Round, hq, h] using hj
  · rw [hi]
    simp [exec, execRnd3, md5Round, hq, h]

/-- `FOLD`, with its three ways out in one record. -/
theorem execFold_eq (s : State) : execFold s = .next { s with
    h := addQuad s.h s.w
    cnt := if s.fin = .data then add64 s.cnt 64 else s.cnt
    ph := match s.fin with | .data => .idle | .tailMore => .pad2 | .tailLast => .emit } := by
  simp only [execFold]
  cases s.fin <;> rfl

/-- `PUSH b`, with its two ways in one record. -/
theorem execPush_eq (b : Byte) (s : State) : execPush b s = .next (
    if s.len = 63 then State.startBlock .data { s with buf := writeByte s.buf s.len b, dv := false, len := 0 }
    else { s with buf := writeByte s.buf s.len b, dv := false, len := s.len + 1 }) := by
  simp only [execPush, State.clearValid]
  split <;> rfl

/-- `INIT` in one record. -/
theorem execInit_eq (s : State) : execInit s =
    .next { s with h := iv, len := 0, cnt := 0, buf := zeroFill s.buf 0 64, dv := false } := by
  simp only [execInit, State.freshContext, State.clearValid]

/-- `EMIT` in one record. -/
theorem execEmit_eq (s : State) : execEmit s = .next { s with
    h := iv, len := 0, cnt := 0, buf := zeroFill s.buf 0 64, dig := vec128 (ser s.h), dv := true, ph := .idle } := by
  simp only [execEmit, State.freshContext]

/-- `PAD2` in one record. -/
theorem execPad2_eq (s : State) : execPad2 s = .next { s with
    buf := memWrite8 (zeroFill s.buf 0 56) 56 (totalBits s.cnt s.len)
    w := s.h, j := 0, fin := .tailLast, ph := .round } := by
  simp only [execPad2, State.startBlock]

/-- `PAD1` in one record. -/
theorem State.padFirst_eq (s : State) : s.padFirst = { s with
    buf := s.padFirst.buf, w := s.h, j := 0, ph := .round,
    fin := if s.len.toNat ≤ 55 then .tailLast else .tailMore } := by
  simp only [State.padFirst, State.startBlock]
  split <;> simp only

/-- Every instruction answers a next state, in every state (R119, R138). -/
theorem exec_next (i : Instr) (s : State) : ∃ t, exec i s = .next t := by
  cases i with
  | push b => exact ⟨_, execPush_eq b s⟩
  | fold => exact ⟨_, execFold_eq s⟩
  | idle =>
    simp only [exec, execIdle]
    split
    · simp only [accept]
      cases decodeCmd s.pins.cmd with
      | push b => exact ⟨_, execPush_eq b s⟩
      | nop => exact ⟨_, rfl⟩
      | final => exact ⟨_, rfl⟩
      | init => exact ⟨_, rfl⟩
    · exact ⟨_, rfl⟩
  | nop => exact ⟨_, rfl⟩
  | final => exact ⟨_, rfl⟩
  | init => exact ⟨_, rfl⟩
  | rnd0 => exact ⟨_, rfl⟩
  | rnd1 => exact ⟨_, rfl⟩
  | rnd2 => exact ⟨_, rfl⟩
  | rnd3 => exact ⟨_, rfl⟩
  | pad2 => exact ⟨_, rfl⟩
  | emit => exact ⟨_, rfl⟩
  | start fin => exact ⟨_, rfl⟩
  | pad1 => exact ⟨_, rfl⟩

/-! ## One step -/

/-- What a step can do, and nothing else: reset, stay idle, accept one of the four commands, a round, `FOLD`, `PAD2` or
`EMIT`; then the clock edge. -/
theorem step_cases {s t : State} (h : step s = .next t) : ∃ u, t = u.nextPins ∧
    ((s.pins.rst = true ∧ u = s.resetEngine) ∨
     (s.pins.rst = false ∧ s.ph = .idle ∧ s.pins.cmdValid = false ∧ u = s) ∨
     (s.pins.rst = false ∧ s.ph = .idle ∧ s.pins.cmdValid = true ∧ exec (decodeCmd s.pins.cmd).instr s = .next u) ∨
     (s.pins.rst = false ∧ s.ph = .round ∧ u = { s with
        w := md5Round s.j s.w (msgWord s.buf), j := s.j + 1, ph := if s.j = 63 then .fold else .round }) ∨
     (s.pins.rst = false ∧ s.ph = .fold ∧ execFold s = .next u) ∨
     (s.pins.rst = false ∧ s.ph = .pad2 ∧ execPad2 s = .next u) ∨
     (s.pins.rst = false ∧ s.ph = .emit ∧ execEmit s = .next u)) := by
  have unwrap : ∀ r : Result, advance r = .next t → ∃ u, r = .next u ∧ t = u.nextPins := by
    intro r hr
    cases r with
    | next u => exact ⟨u, rfl, by simpa [advance] using hr.symm⟩
    | fault f => cases f
    | refused f => simp [advance] at hr
  unfold step at h
  cases hr : s.pins.rst with
  | true =>
    rw [hr, if_pos rfl] at h
    obtain ⟨u, hu, ht⟩ := unwrap _ h
    exact ⟨u, ht, .inl ⟨rfl, by simpa using hu.symm⟩⟩
  | false =>
    rw [hr, if_neg (by simp)] at h
    obtain ⟨u, hu, ht⟩ := unwrap _ h
    refine ⟨u, ht, .inr ?_⟩
    cases hp : s.ph with
    | idle =>
      simp only [State.select, hp, selectStep_idle, exec, execIdle] at hu
      cases hv : s.pins.cmdValid with
      | true =>
        rw [hv, if_pos rfl, accept_eq] at hu
        exact .inr (.inl ⟨rfl, rfl, rfl, hu⟩)
      | false =>
        rw [hv, if_neg (by simp)] at hu
        exact .inl ⟨rfl, rfl, rfl, by simpa using hu.symm⟩
    | round =>
      simp only [State.select, hp, selectStep_round, exec_roundInstr s hp] at hu
      exact .inr (.inr (.inl ⟨rfl, rfl, by simpa using hu.symm⟩))
    | fold =>
      simp only [State.select, hp, selectStep_fold, exec] at hu
      exact .inr (.inr (.inr (.inl ⟨rfl, rfl, hu⟩)))
    | pad2 =>
      simp only [State.select, hp, selectStep_pad2, exec] at hu
      exact .inr (.inr (.inr (.inr (.inl ⟨rfl, rfl, hu⟩))))
    | emit =>
      simp only [State.select, hp, selectStep_emit, exec] at hu
      exact .inr (.inr (.inr (.inr (.inr ⟨rfl, rfl, hu⟩))))

/-- The same, command by command and with the next state written out: every step is one of these ten. -/
theorem step_inversion {s t : State} (h : step s = .next t) : ∃ u, t = u.nextPins ∧
    ((s.pins.rst = true ∧ u = s.resetEngine) ∨
     (s.pins.rst = false ∧ s.ph = .idle ∧ (s.accepted = none ∨ s.accepted = some .nop) ∧ u = s) ∨
     (s.pins.rst = false ∧ s.ph = .idle ∧ s.accepted = some .init ∧ u = { s with h := iv, len := 0, cnt := 0, buf := zeroFill s.buf 0 64, dv := false }) ∨
     (s.pins.rst = false ∧ s.ph = .idle ∧ s.len ≠ 63 ∧ ∃ b, s.accepted = some (.push b) ∧ u = { s with buf := writeByte s.buf s.len b, dv := false, len := s.len + 1 }) ∨
     (s.pins.rst = false ∧ s.ph = .idle ∧ s.len = 63 ∧ ∃ b, s.accepted = some (.push b) ∧ u = { s with buf := writeByte s.buf s.len b, dv := false, len := 0, w := s.h, j := 0, fin := .data, ph := .round }) ∨
     (s.pins.rst = false ∧ s.ph = .idle ∧ s.accepted = some .final ∧ u = s.clearValid.padFirst) ∨
     (s.pins.rst = false ∧ s.ph = .round ∧ s.accepted = none ∧ u = { s with
        w := md5Round s.j s.w (msgWord s.buf), j := s.j + 1, ph := if s.j = 63 then .fold else .round }) ∨
     (s.pins.rst = false ∧ s.ph = .fold ∧ s.accepted = none ∧ u = { s with
    h := addQuad s.h s.w
    cnt := if s.fin = .data then add64 s.cnt 64 else s.cnt
    ph := match s.fin with | .data => .idle | .tailMore => .pad2 | .tailLast => .emit }) ∨
     (s.pins.rst = false ∧ s.ph = .pad2 ∧ s.accepted = none ∧ u = { s with buf := memWrite8 (zeroFill s.buf 0 56) 56 (totalBits s.cnt s.len), w := s.h, j := 0, fin := .tailLast, ph := .round }) ∨
     (s.pins.rst = false ∧ s.ph = .emit ∧ s.accepted = none ∧ u = { s with
    h := iv, len := 0, cnt := 0, buf := zeroFill s.buf 0 64, dig := vec128 (ser s.h), dv := true, ph := .idle })) := by
  obtain ⟨u, rfl, hu⟩ := step_cases h
  refine ⟨u, rfl, ?_⟩
  clear h
  rcases hu with h | h | h | h | h | h | h
  · exact .inl h
  · obtain ⟨hr, hp, hv, rfl⟩ := h; exact .inr (.inl ⟨hr, hp, .inl (by simp [State.accepted, hv]), rfl⟩)
  · obtain ⟨hr, hp, hv, hx⟩ := h
    have ha : s.accepted = some (decodeCmd s.pins.cmd) := by simp [State.accepted, hr, hp, hv]
    cases hc : decodeCmd s.pins.cmd with
    | nop => rw [hc] at hx ha; obtain rfl : s = u := by simpa [exec, Command.instr, execNop] using hx
             exact .inr (.inl ⟨hr, hp, .inr ha, rfl⟩)
    | init => rw [hc] at hx ha; simp only [exec, Command.instr, execInit_eq, Host.Outcome.next.injEq] at hx
              exact .inr (.inr (.inl ⟨hr, hp, ha, hx.symm⟩))
    | push b => rw [hc] at hx ha; simp only [exec, Command.instr, execPush_eq, Host.Outcome.next.injEq] at hx
                by_cases hl : s.len = 63
                · rw [if_pos hl] at hx
                  exact .inr (.inr (.inr (.inr (.inl ⟨hr, hp, hl, b, ha, hx.symm⟩))))
                · rw [if_neg hl] at hx
                  exact .inr (.inr (.inr (.inl ⟨hr, hp, hl, b, ha, hx.symm⟩)))
    | final => rw [hc] at hx ha; simp only [exec, Command.instr, execFinal, Host.Outcome.next.injEq] at hx
               exact .inr (.inr (.inr (.inr (.inr (.inl ⟨hr, hp, ha, hx.symm⟩)))))
  · obtain ⟨hr, hp, hx⟩ := h; exact .inr (.inr (.inr (.inr (.inr (.inr (.inl ⟨hr, hp, by simp [State.accepted, hp], hx⟩))))))
  · obtain ⟨hr, hp, hx⟩ := h; simp only [execFold_eq, Host.Outcome.next.injEq] at hx
    exact .inr (.inr (.inr (.inr (.inr (.inr (.inr (.inl ⟨hr, hp, by simp [State.accepted, hp], hx.symm⟩)))))))
  · obtain ⟨hr, hp, hx⟩ := h; simp only [execPad2_eq, Host.Outcome.next.injEq] at hx
    exact .inr (.inr (.inr (.inr (.inr (.inr (.inr (.inr (.inl ⟨hr, hp, by simp [State.accepted, hp], hx.symm⟩))))))))
  · obtain ⟨hr, hp, hx⟩ := h; simp only [execEmit_eq, Host.Outcome.next.injEq] at hx
    exact .inr (.inr (.inr (.inr (.inr (.inr (.inr (.inr (.inr ⟨hr, hp, by simp [State.accepted, hp], hx.symm⟩))))))))

/-! ## Runs -/

@[simp] theorem run_zero (s : State) : run 0 s = .next s := rfl

theorem run_succ (n : Nat) (s t : State) (h : step s = .next t) : run (n + 1) s = run n t := by
  have : core.step s = .next t := h
  simp only [run, Host.Core.run, this]
  rfl

/-- A run is cut anywhere. -/
theorem run_add (m n : Nat) (s t : State) (h : run m s = .next t) : run (m + n) s = run n t := by
  induction m generalizing s with
  | zero =>
    have : s = t := by simpa using h
    rw [this, Nat.zero_add]
  | succ m ih =>
    have hs : ∃ u, step s = .next u := by
      cases hc : step s with
      | next u => exact ⟨u, rfl⟩
      | fault f => cases f
      | refused f =>
        have hc' : core.step s = .refused f := hc
        simp [run, Host.Core.run, hc'] at h
    obtain ⟨u, hu⟩ := hs
    rw [run_succ m s u hu] at h
    rw [show m + 1 + n = (m + n) + 1 by omega, run_succ (m + n) s u hu]
    exact ih u h

end Sys2Proof.Machine
end

