-- ==== Sys2Proof/Laws/Run.lean ====
section
/-! SUPPORT. Steps and runs of a host that does not reset: what the step of each phase is, and how the freedom from reset moves
on with the clock. -/

namespace Sys2Proof.Machine

/-! ## The step of each busy phase -/

theorem step_of_round {s : State} (hr : s.pins.rst = false) (hp : s.ph = .round) : step s = .next (State.nextPins { s with
    w := md5Round s.j s.w (msgWord s.buf), j := s.j + 1, ph := if s.j = 63 then .fold else .round }) := by
  unfold step
  rw [hr]
  simp only [Bool.false_eq_true, if_false, State.select, hp, selectStep_round, exec_roundInstr s hp, advance]

theorem step_of_fold {s : State} (hr : s.pins.rst = false) (hp : s.ph = .fold) : step s = .next (State.nextPins { s with
    h := addQuad s.h s.w
    cnt := if s.fin = .data then add64 s.cnt 64 else s.cnt
    ph := match s.fin with | .data => .idle | .tailMore => .pad2 | .tailLast => .emit }) := by
  unfold step
  rw [hr]
  simp only [Bool.false_eq_true, if_false, State.select, hp, selectStep_fold, exec, execFold_eq, advance]
    <;> cases s.fin <;> rfl

theorem step_of_pad2 {s : State} (hr : s.pins.rst = false) (hp : s.ph = .pad2) : step s = .next (State.nextPins { s with
    buf := memWrite8 (zeroFill s.buf 0 56) 56 (totalBits s.cnt s.len)
    w := s.h, j := 0, fin := .tailLast, ph := .round }) := by
  unfold step
  rw [hr]
  simp only [Bool.false_eq_true, if_false, State.select, hp, selectStep_pad2, exec, execPad2_eq, advance]

theorem step_of_emit {s : State} (hr : s.pins.rst = false) (hp : s.ph = .emit) : step s = .next (State.nextPins { s with
    h := iv, len := 0, cnt := 0, buf := zeroFill s.buf 0 64, dig := vec128 (ser s.h), dv := true, ph := .idle }) := by
  unfold step
  rw [hr]
  simp only [Bool.false_eq_true, if_false, State.select, hp, selectStep_emit, exec, execEmit_eq, advance]

/-! ## Freedom from reset -/

theorem State.unreset_head {n : Nat} {s : State} (h : s.unreset (n + 1)) : s.pins.rst = false := h _ (by simp)

theorem State.unreset_congr {n : Nat} {s t : State} (h : s.unreset n) (hp : t.pins = s.pins) (hs : t.script = s.script) :
    t.unreset n := by
  unfold State.unreset
  rw [hp, hs]
  exact h

theorem State.unreset_mono {m n : Nat} {s : State} (h : s.unreset n) (hm : m ≤ n) : s.unreset m := fun p hp =>
  h p (List.take_subset_take_left _ hm hp)

/-- After the edge one step less is promised. -/
theorem State.unreset_next {n : Nat} {s : State} (h : s.unreset (n + 1)) : s.nextPins.unreset n := by
  intro p hp
  cases hs : s.script with
  | nil =>
    have : p = Pins.quiet := by
      cases n with
      | zero => simp at hp
      | succ n => simpa [hs] using hp
    rw [this]
    rfl
  | cons q qs =>
    simp only [State.nextPins_pins, State.nextPins_script, hs, List.headD_cons, List.tail_cons] at hp
    refine h p ?_
    simp only [hs, List.take_succ_cons, List.mem_cons]
    exact .inr hp

/-! ## The rounds -/

@[simp] theorem rounds_zero (w : Quad) (msg : BitVec 4 → Word) : rounds 0 w msg = w := rfl

theorem rounds_succ (n : Nat) (w : Quad) (msg : BitVec 4 → Word) :
    rounds (n + 1) w msg = md5Round (BitVec.ofNat 6 n) (rounds n w msg) msg := by
  simp [rounds, List.range_succ]

end Sys2Proof.Machine
end

