-- ==== Sys2Proof/Tests/Slice0.lean ====
section
/-! SUPPORT. The model's own tests: words and values from the spec's own examples and tables (the source of each stands in its
comment), and, for every statement with hypotheses, a witness that meets them. -/

namespace Sys2Proof.Machine

/-! ## WellFormed: the one check, and the terms it refuses -/

theorem test_wf_refuses_start : (Instr.start .data).wf = false := rfl
theorem test_wf_refuses_pad1 : Instr.pad1.wf = false := rfl
theorem test_wf_accepts_push : (Instr.push 0x80).wf = true := rfl

/-! ## Decoding: a word of every constructor, bit by bit from R60, R63, R64 and 95_test_vectors.md T7 -/

theorem test_decode_nop : decode (.command 0b0011111111) = .ok .nop := by rfl
theorem test_decode_push : decode (.command 0b0101100001) = .ok (.push 0x61) := by rfl
theorem test_decode_final : decode (.command 0b1010100101) = .ok .final := by rfl
theorem test_decode_init : decode (.command 0b1111111111) = .ok .init := by rfl
theorem test_decode_idle : decode (.phase 0b000) = .ok .idle := by rfl
theorem test_decode_rnd0 : decode (.round 0b001001111) = .ok .rnd0 := by rfl
theorem test_decode_rnd1 : decode (.round 0b001010000) = .ok .rnd1 := by rfl
theorem test_decode_rnd2 : decode (.round 0b001101111) = .ok .rnd2 := by rfl
theorem test_decode_rnd3 : decode (.round 0b001110000) = .ok .rnd3 := by rfl
theorem test_decode_fold : decode (.phase 0b010) = .ok .fold := by rfl
theorem test_decode_pad2 : decode (.phase 0b011) = .ok .pad2 := by rfl
theorem test_decode_emit : decode (.phase 0b100) = .ok .emit := by rfl
/-- R72: the unreachable codes are rejected by name, and START and PAD1 have no pattern (R71). -/
theorem test_decode_rejects : decode (.phase 0b101) = .error .unreachablePhase ∧ decode (.phase 0b111) = .error .unreachablePhase ∧
    decode (.phase 0b001) = .error .roundNeedsIndex ∧ decode (.round 0b010000000) = .error .notARound ∧
    encode (.start .data) = none ∧ encode .pad1 = none := by refine ⟨rfl, rfl, rfl, rfl, rfl, rfl⟩
/-- R67: PUSH 0x61 is 0x161. -/
theorem test_listing : (Command.push 0x61).text = "PUSH 0x61" ∧ (Command.push 0x61).listingWord = "0x161" ∧
    Command.init.listingWord = "0x300" := by decide +kernel

/-! ## Parameters -/

/-- R8: the parameters are the sizes the definitions have. -/
theorem test_parameters : (bufBytes []).length = Config.blockBytes ∧ (ser iv).length = Config.digestBytes ∧
    sTable.length = Config.rounds ∧ kTable0.length = Config.quartileRounds ∧ 2 ^ 4 = Config.blockWords ∧
    (bytes64 0).length = Config.lenFieldBytes := by decide

/-! ## Primitives -/

/-- 95_test_vectors.md T2. -/
theorem test_rotl32 : rotl32 0x80000001 7 = 0xc0 ∧ rotl32 0x12345678 22 = 0x9e048d15 ∧ rotl32 0xdeadbeef 20 = 0xeefdeadb := by decide
/-- 95_test_vectors.md T1, the row b = aaaaaaaa. -/
theorem test_round_functions : f0 0xaaaaaaaa 0x0f0f0f0f 0x33333333 = 0x1b1b1b1b ∧ f1 0xaaaaaaaa 0x0f0f0f0f 0x33333333 = 0x2e2e2e2e ∧
    f2 0xaaaaaaaa 0x0f0f0f0f 0x33333333 = 0x96969696 ∧ f3 0xaaaaaaaa 0x0f0f0f0f 0x33333333 = 0xe1e1e1e1 := by decide
/-- 95_test_vectors.md T6. -/
theorem test_total_bits : totalBits 0x0123456789abcdc0 3 = 0x091a2b3c4d5e6e18 ∧ totalBits 0x2000000000000000 0 = 0 ∧
    totalBits 0xffffffffffffffc0 63 = 0xfffffffffffffff8 := by decide
/-- 95_test_vectors.md T9. -/
theorem test_message_word : msgWord [(0, 0x61), (1, 0x62), (2, 0x63), (3, 0x80)] 0 = 0x80636261 ∧
    msgWord [(56, 0xc0), (57, 0x01)] 14 = 0x000001c0 := by decide

/-! ## One step of each instruction -/

/-- A small state: reset, with a phase, a length and the first two bytes of the buffer. -/
def small (ph : Phase) (len : BitVec 6) : State :=
  { State.reset with ph := ph, len := len, buf := [(0, 0x61), (1, 0x62)] }

/-- Does the outcome hold a next state that passes the check? -/
def nextIs (r : Result) (p : State → Bool) : Bool :=
  match r with
  | .next t => p t
  | .fault _ => false
  | .refused _ => false

/-- R108. -/
theorem test_nop : nextIs (exec .nop (small .idle 2)) (· == small .idle 2) = true := by decide +kernel
/-- R110, its example: after reset, PUSH 0x61. -/
theorem test_push : nextIs (exec (.push 0x61) State.reset) (fun t => t.buf == [(0, 0x61)] && t.len == 1 && t.ph == .idle) = true := by
  decide +kernel
/-- R110: the 64th byte. -/
theorem test_push_64th : nextIs (exec (.push 0x80) (small .idle 63))
    (fun t => readByte t.buf 63 == 0x80 && t.len == 0 && t.ph == .round && t.fin == .data && t.w == iv && t.cnt == 0) = true := by
  decide +kernel
/-- R102: two bytes in the accumulator, one tail block; the bit count is 16. -/
theorem test_final : nextIs (exec .final (small .idle 2))
    (fun t => t.buf == [(0, 0x61), (1, 0x62), (2, 0x80), (56, 0x10)] && t.fin == .tailLast && t.ph == .round) = true := by decide +kernel
/-- R102: 56 bytes, the first of two tail blocks, no length field. -/
theorem test_final_two_blocks : nextIs (exec .final (small .idle 56))
    (fun t => t.buf == [(0, 0x61), (1, 0x62), (56, 0x80)] && t.fin == .tailMore) = true := by decide +kernel
/-- R109: a stream in progress is discarded. -/
theorem test_init : nextIs (exec .init (small .idle 2)) (· == State.reset) = true := by decide +kernel
/-- R58, T8. -/
theorem test_idle_accepts : nextIs (exec .idle { small .idle 2 with pins := ⟨false, true, 0x163⟩ })
    (fun t => t.buf == [(0, 0x61), (1, 0x62), (2, 0x63)] && t.len == 3) = true := by decide +kernel
/-- R86, its example. -/
theorem test_rnd0 : nextIs (exec .rnd0 { State.reset with ph := .round, w := iv, buf := [(0, 0x80)] })
    (fun t => t.w == ⟨0x10325476, 0xa5202774, 0xefcdab89, 0x98badcfe⟩ && t.j == 1) = true := by decide +kernel
/-- R87, its example. -/
theorem test_rnd1 : nextIs (exec .rnd1 { State.reset with
      ph := .round, j := 16, w := ⟨0xf56c7cf1, 0xd6819c6a, 0x5aa53f75, 0x374943a7⟩, buf := [(0, 0x80)] })
    (fun t => t.w == ⟨0x374943a7, 0x1c7d7513, 0xd6819c6a, 0x5aa53f75⟩ && t.j == 17) = true := by decide +kernel
/-- R88, its example. -/
theorem test_rnd2 : nextIs (exec .rnd2 { State.reset with
      ph := .round, j := 32, w := ⟨0x13707036, 0xa2205f1f, 0x1c31c384, 0xae7813db⟩, buf := [(0, 0x80)] })
    (fun t => t.w == ⟨0xae7813db, 0xdf63eaa1, 0xa2205f1f, 0x1c31c384⟩ && t.j == 33) = true := by decide +kernel
/-- R89, its example: the last round. -/
theorem test_rnd3 : nextIs (exec .rnd3 { State.reset with
      ph := .round, j := 63, w := ⟨0x30130182, 0xff4ea3eb, 0x6e10a476, 0x7246fad3⟩, buf := [(0, 0x80)] })
    (fun t => t.w == ⟨0x7246fad3, 0x14e45506, 0xff4ea3eb, 0x6e10a476⟩ && t.j == 0 && t.ph == .fold) = true := by decide +kernel
/-- 95_test_vectors.md T3, the row j = 48. -/
theorem test_rnd3_zeros : nextIs (exec .rnd3 { State.reset with ph := .round, j := 48 })
    (fun t => t.w == ⟨0, 0x0a4890fd, 0, 0⟩ && t.ph == .round) = true := by decide +kernel
/-- 95_test_vectors.md T4, first row. -/
theorem test_fold_data : nextIs (exec .fold { State.reset with
      ph := .fold, h := ⟨0xffffffff, 0x80000000, 1, 0⟩, w := ⟨1, 0x80000000, 0xffffffff, 0⟩ })
    (fun t => t.h == ⟨0, 0, 0, 0⟩ && t.cnt == 64 && t.ph == .idle) = true := by decide +kernel
/-- 95_test_vectors.md T4, third row. -/
theorem test_fold_more : nextIs (exec .fold { State.reset with ph := .fold, fin := .tailMore, cnt := 128 })
    (fun t => t.cnt == 128 && t.ph == .pad2) = true := by decide +kernel
/-- R103, its example: 56 bytes pushed. -/
theorem test_pad2 : nextIs (exec .pad2 (small .pad2 56))
    (fun t => t.buf == [(56, 0xc0), (57, 0x01)] && t.fin == .tailLast && t.ph == .round) = true := by decide +kernel
/-- R112, its example. -/
theorem test_emit : nextIs (exec .emit { small .emit 3 with h := ⟨0x98500190, 0xb04fd23c, 0x7d3f96d6, 0x727fe128⟩ })
    (fun t => t.dig == 0x727fe1287d3f96d6b04fd23c98500190 && t.dv && t.h == iv && t.buf == [] && t.len == 0) = true := by decide +kernel
/-- R85, its example. -/
theorem test_start : nextIs (exec (.start .tailLast) State.reset)
    (fun t => t.w == ⟨0x67452301, 0xefcdab89, 0x98badcfe, 0x10325476⟩ && t.j == 0 && t.fin == .tailLast && t.ph == .round) = true := by
  decide +kernel
/-- R102: 55 bytes, the length right after 0x80; the count is 440 = 0x1b8. -/
theorem test_pad1 : nextIs (exec .pad1 (small .idle 55))
    (fun t => t.buf == [(0, 0x61), (1, 0x62), (55, 0x80), (56, 0xb8), (57, 0x01)]) = true := by decide +kernel
/-- R134, T8: with `rst` and a command presented, reset only. -/
theorem test_reset_wins : nextIs (step { small .round 5 with pins := ⟨true, true, 0x161⟩ }) (· == State.reset) = true := by
  decide +kernel
/-- T8: a command presented in the rounds is not accepted. -/
theorem test_busy_push : nextIs (step { small .round 5 with pins := ⟨false, true, 0x161⟩ })
    (fun t => t.len == 5 && t.j == 1 && t.buf == [(0, 0x61), (1, 0x62)]) = true := by decide +kernel
/-- 95_test_vectors.md T10. -/
theorem test_snap : State.reset.outputs = ⟨true, 0x1032547698badcfeefcdab8967452301, 0, false⟩ := by decide +kernel
/-- A row's number runs as the first instruction after reset. -/
theorem test_withFetchWord : nextIs (step (State.reset.withFetchWord 16 0x161)) (fun t => t.buf == [(0, 0x61)]) = true ∧
    nextIs (step (State.reset.withFetchWord 8 2)) (fun t => t.cnt == 64) = true ∧ decodeTableWord 16 0x070 = some .rnd3 := by decide +kernel
/-- 95_test_vectors.md V6, the digest of 64 bytes 0x61, at the function level. -/
theorem test_md5_64 : md5 (List.replicate 64 0x61) =
    [0x01, 0x48, 0x42, 0xd4, 0x80, 0xb5, 0x71, 0x49, 0x5a, 0x4a, 0x03, 0x63, 0x79, 0x3f, 0x73, 0x67] := by decide +kernel

/-! ## Witnesses: concrete states and operands that meet the hypotheses of each statement -/

/-- A busy state in mid stream, with a host that keeps presenting a byte. -/
def busy (ph : Phase) (fin : FinCode) (len : BitVec 6) : State :=
  { small ph len with fin := fin, cnt := 64, w := iv, pins := ⟨false, true, 0x161⟩, script := [⟨false, true, 0x161⟩] }

/-- An idle state in mid stream to which a command word is offered. -/
def offer (len : BitVec 6) (c : BitVec 10) : State :=
  { small .idle len with cnt := 64, fin := .tailLast, pins := ⟨false, true, c⟩, script := [⟨false, false, 0⟩] }

theorem offer_inv (len : BitVec 6) (c : BitVec 10) : (offer len c).Inv where
  bufWf := rfl
  indexZero := fun _ => rfl
  cntBlocks := by
    show (64 : BitVec 64).extractLsb' 0 6 = 0
    decide
  dataEmpty := fun h => absurd rfl h
  moreLength := fun h => absurd rfl h
  pad2More := fun h => by cases h
  emitLast := fun h => by cases h
  validIdle := fun h => by cases h

theorem witness_DecoderAgreesWithTheOpcodeTable :
    decode (.round 0b001111111) = .ok .rnd3 ∧ decode (.phase 0b110) = .error .unreachablePhase := ⟨rfl, rfl⟩
theorem witness_DecodeOfEncodeIsTheInstruction : (Instr.push 0xff).wf = true ∧ decode (.round 0b001110000) = .ok .rnd3 := ⟨rfl, rfl⟩
theorem witness_PrimitivesComputeModuloAndRotate : 1 ≤ (31 : BitVec 5).toNat ∧ 1 ≤ (1 : BitVec 5).toNat ∧ 31 < 32 := by decide
theorem witness_SerializationPutsTheFirstWordLowest : (15 : Nat) < 16 := by decide
theorem witness_RoundFunctionsBitByBit : (31 : Nat) < 32 := by decide
theorem witness_MessageIndexIsAPermutationPerQuartile : (15 : BitVec 6).toNat < 16 := by decide
theorem witness_MessageWordIsTheLittleEndianWordOfTheBuffer : (3 : Nat) < 4 := by decide
theorem witness_LengthFieldReadsBackAsTwoWords : Memory.wf [(0, 0x61), (63, 0xff)] = true ∧ (13 : BitVec 4).toNat < 14 := by decide
theorem witness_NopWritesNothing : (0x0ff : BitVec 10).extractLsb' 8 2 = 0 ∧ (small .idle 2).pins.cmdValid = false := by decide
theorem witness_InitGivesTheInitialContext : (0x3ff : BitVec 10).extractLsb' 8 2 = 3 ∧ Memory.wf (small .idle 2).buf = true := by decide
theorem witness_PushWritesOneByteAtLen : Memory.wf (small .idle 63).buf = true ∧ (small .idle 63).len = 63 ∧
    Memory.wf (small .idle 62).buf = true ∧ (small .idle 62).len ≠ 63 := by decide
theorem witness_PadOneBuildsTheFirstTailBlock : Memory.wf (small .idle 55).buf = true ∧ Memory.wf (small .idle 56).buf = true := by decide
theorem witness_FinalClearsValidAndPads : Memory.wf (small .idle 0).buf = true ∧ Memory.wf (small .idle 63).buf = true := by decide
theorem witness_PadTwoBuildsTheSecondTailBlock : Memory.wf (small .pad2 56).buf = true := by decide
theorem witness_IdleAcceptsThePresentedCommand : (small .idle 0).pins.cmdValid = false ∧ (offer 0 0x200).pins.cmdValid = true := by decide
theorem witness_RoundStepsFollowTheirPseudocode : (busy .round .data 0).ph = .round ∧
    (15 : BitVec 6).toNat / 16 = 0 ∧ (16 : BitVec 6).toNat / 16 = 1 ∧ (47 : BitVec 6).toNat / 16 = 2 ∧ (63 : BitVec 6).toNat / 16 = 3 := by
  decide
theorem witness_FoldAddsTheWorkingCopiesBack : (busy .fold .data 0).fin = .data ∧ (busy .fold .tailMore 56).fin = .tailMore ∧
    (busy .fold .tailLast 3).fin = .tailLast := ⟨rfl, rfl, rfl⟩
theorem witness_EmitDeliversTheDigestAndReenters : Memory.wf (small .emit 3).buf = true := by decide
theorem witness_PhaseBitsSelectTheStep : (busy .round .data 0).ph = .round ∧ (busy .emit .tailLast 3).ph ≠ .round := by decide
theorem witness_StepRunsTheDecodedInstruction :
    ((offer 3 0x200).pins.rst = false ∧ (offer 3 0x200).presents (.command 0x200) ∧ decode (.command 0x200) = .ok .final) ∧
    ((busy .round .data 0).pins.rst = false ∧ (busy .round .data 0).presents (.round 0b001000000) ∧
      decode (.round 0b001000000) = .ok .rnd0) ∧
    ((small .idle 3).pins.rst = false ∧ (small .idle 3).presents (.phase 0) ∧ decode (.phase 0) = .ok .idle) :=
  ⟨⟨rfl, ⟨rfl, rfl, rfl⟩, rfl⟩, ⟨rfl, ⟨rfl, rfl⟩, rfl⟩, ⟨rfl, ⟨rfl, by decide, fun _ => rfl⟩, rfl⟩⟩
theorem witness_ResetWinsAndGivesTheResetState : ({ busy .round .data 0 with pins := ⟨true, true, 0x161⟩ } : State).pins.rst = true := rfl

/-- Every state has a next state: the hypothesis `step s = .next t` of the one-step statements, in every phase. -/
theorem witness_step (ph : Phase) (fin : FinCode) : ∃ t, step (busy ph fin 56) = .next t ∧ (busy ph fin 56).pins.rst = false := by
  cases ph with
  | idle =>
    obtain ⟨u, hu⟩ := exec_next .idle (busy .idle fin 56)
    exact ⟨u.nextPins, by rw [show step (busy .idle fin 56) = advance (exec .idle (busy .idle fin 56)) from rfl, hu]; rfl, rfl⟩
  | round => exact ⟨_, step_of_round rfl rfl, rfl⟩
  | fold => exact ⟨_, step_of_fold rfl rfl, rfl⟩
  | pad2 => exact ⟨_, step_of_pad2 rfl rfl, rfl⟩
  | emit => exact ⟨_, step_of_emit rfl rfl, rfl⟩

theorem witness_PhaseTransitionsAreTheTable : ∃ t, step (busy .fold .tailMore 56) = .next t :=
  (witness_step .fold .tailMore).imp fun _ h => h.1
theorem witness_BusyEngineIgnoresTheCommandPort : (busy .round .data 0).ph ≠ .idle ∧ (busy .round .data 0).pins.rst = false := by decide
theorem witness_BufferIsStableWhileCompressing : ∃ t, step (busy .fold .data 56) = .next t ∧ (busy .fold .data 56).pins.rst = false ∧
    ((busy .fold .data 56).ph = .round ∨ (busy .fold .data 56).ph = .fold) :=
  (witness_step .fold .data).imp fun _ h => ⟨h.1, h.2, .inr rfl⟩
theorem witness_SnapshotChangesOnlyAtFoldEmitInit : ∃ t, step (busy .emit .tailLast 56) = .next t :=
  (witness_step .emit .tailLast).imp fun _ h => h.1
theorem witness_DigestRegisterIsWrittenOnlyByEmit : ∃ t, step (busy .emit .tailLast 56) = .next t :=
  (witness_step .emit .tailLast).imp fun _ h => h.1
theorem witness_DigestValidIsSetByEmitOnly : ∃ t, step (busy .emit .tailLast 56) = .next t :=
  (witness_step .emit .tailLast).imp fun _ h => h.1
theorem witness_CounterMovesOnlyAtDataFolds : ∃ t, step (busy .fold .data 56) = .next t :=
  (witness_step .fold .data).imp fun _ h => h.1
theorem witness_ResetInitAndEmitLeaveTheInitialContext : ∃ t, Memory.wf (busy .emit .tailLast 56).buf = true ∧
    step (busy .emit .tailLast 56) = .next t ∧ (busy .emit .tailLast 56).ph = .emit :=
  (witness_step .emit .tailLast).imp fun _ h => ⟨by decide, h.1, rfl⟩
theorem witness_ResetInitAndEmit_init : (offer 3 0x300).accepted = some .init := rfl
theorem witness_EveryStepKeepsTheInvariants : (offer 63 0x161).Inv ∧ ∃ t, step (offer 63 0x161) = .next t := ⟨offer_inv 63 0x161, _, rfl⟩
theorem witness_PaddingFillsOneOrTwoBlocks : (63 : Nat) ≤ 63 ∧ (List.replicate 55 (0x61 : Byte)).length ≤ 63 ∧
    (List.replicate 63 (0x61 : Byte)).length ≤ 63 ∧ (55 + 1 + 64) % 64 = 56 := by decide
theorem witness_BufferHoldsThePaddingBlocks : ∃ t, Memory.wf (small .pad2 56).buf = true ∧ exec .pad2 (small .pad2 56) = .next t ∧
    56 ≤ (small .pad2 56).len.toNat := ⟨_, by decide, execPad2_eq _, by decide⟩
theorem witness_BufferHoldsThePaddingBlocks_pad1 : ∃ t, exec .pad1 (small .idle 55) = .next t := ⟨_, rfl⟩
theorem witness_RoundsAndFoldComputeCompress : (busy .round .data 0).ph = .round ∧ (busy .round .data 0).j = 0 ∧
    (busy .round .data 0).w = (busy .round .data 0).h ∧ (busy .round .data 0).unreset 65 := by
  refine ⟨rfl, rfl, rfl, by decide⟩
theorem witness_BusyEngineBecomesReady : (busy .round .tailMore 56).ph ≠ .idle ∧ (busy .round .tailMore 56).unreset 132 := by
  refine ⟨by decide, by decide⟩
theorem witness_AcceptedCommandRefinesTheCommandLevel :
    ((offer 63 0x161).Inv ∧ (offer 63 0x161).offered (.push 0x61) ∧ (offer 63 0x161).unreset 133) ∧
    ((offer 56 0x200).Inv ∧ (offer 56 0x200).offered .final ∧ (offer 56 0x200).unreset 133) :=
  ⟨⟨offer_inv _ _, ⟨rfl, rfl, rfl, rfl⟩, by decide⟩, ⟨offer_inv _ _, ⟨rfl, rfl, rfl, rfl⟩, by decide⟩⟩
theorem witness_IdleViewIsTheFoldOfAcceptedCommands : (offer 2 0x161).Inv ∧ (offer 2 0x161).ph = .idle ∧ (offer 2 0x161).unreset 1 ∧
    ∃ t, run 1 (offer 2 0x161) = .next t ∧ t.ph = .idle := ⟨offer_inv _ _, rfl, by decide, _, rfl, rfl⟩

/-- The same stream context with other dead registers, another digest and a dead byte in the buffer. -/
def twin (s : State) : State := { s with w := ⟨1, 2, 3, 4⟩, fin := .tailMore, dig := 5, dv := true, buf := s.buf ++ [(60, 0xff)] }

theorem witness_OutputsDependOnTheStreamContextOnly :
    Memory.wf (offer 2 0x200).buf = true ∧ Memory.wf (twin (offer 2 0x200)).buf = true ∧ (offer 2 0x200).ph = .idle ∧
    (offer 2 0x200).h = (twin (offer 2 0x200)).h ∧ (offer 2 0x200).acc = (twin (offer 2 0x200)).acc ∧
    (offer 2 0x200).cnt = (twin (offer 2 0x200)).cnt ∧ (offer 2 0x200).pins = (twin (offer 2 0x200)).pins ∧
    (offer 2 0x200).script = (twin (offer 2 0x200)).script ∧ offer 2 0x200 ≠ twin (offer 2 0x200) := by
  refine ⟨by decide, by decide, rfl, rfl, by decide, rfl, rfl, rfl, by decide⟩
theorem witness_CommandsTakeTheTabledStepCounts : (offer 55 0x200).offered .final ∧ (offer 55 0x200).unreset 133 ∧
    (offer 56 0x200).offered .final := ⟨⟨rfl, rfl, rfl, rfl⟩, by decide, ⟨rfl, rfl, rfl, rfl⟩⟩

/-- The command-level view of the reset state, the initial context. -/
theorem witness_PushesAndFinalComputeMd5 : State.reset.view.h = iv ∧ State.reset.view.acc = [] ∧ State.reset.view.cnt = 0 := ⟨rfl, rfl, rfl⟩
theorem witness_FixedBufferEqualsTheGrowableAccumulator :
    State.reset.view.h = iv ∧ State.reset.view.acc = [] ∧ State.reset.view.cnt = 0 := ⟨rfl, rfl, rfl⟩
theorem witness_SecondFinalDigestsTheEmptySequence :
    let s : State := { State.reset with pins := ⟨false, true, 0x200⟩, dig := 7 }
    Memory.wf s.buf = true ∧ s.fresh ∧ s.offered .final ∧ s.unreset 133 :=
  ⟨rfl, ⟨rfl, rfl, rfl⟩, ⟨rfl, rfl, rfl, rfl⟩, by decide⟩

/-- A reset engine whose host pushes one byte. -/
theorem witness_EveryValidDigestIsTheMd5OfItsStream :
    let s : State := { State.reset with pins := ⟨false, true, 0x161⟩ }
    s.Inv ∧ s.ph = .idle ∧ s.fresh ∧ s.dv = false ∧ s.unreset 1 ∧ ∃ t, run 1 s = .next t ∧ t.ph = .idle :=
  ⟨{ bufWf := rfl, indexZero := fun _ => rfl, cntBlocks := by decide, dataEmpty := fun _ _ => rfl,
     moreLength := fun h => absurd rfl h, pad2More := (fun h => by cases h), emitLast := (fun h => by cases h),
     validIdle := fun _ => rfl }, rfl, ⟨rfl, rfl, rfl⟩, rfl, by decide, _, rfl, rfl⟩

end Sys2Proof.Machine
end

section
/-! The arithmetic and logic primitives of 00_scope.md R14, bit by bit and in naturals. -/

namespace Sys2Proof.Machine

theorem toNat_add32 (x y : Word) : (add32 x y).toNat = (x.toNat + y.toNat) % 2 ^ 32 :=
  BitVec.toNat_add x y

theorem toNat_add64 (x y : BitVec 64) : (add64 x y).toNat = (x.toNat + y.toNat) % 2 ^ 64 :=
  BitVec.toNat_add x y

theorem getLsbD_not32 (x : Word) {i : Nat} (hi : i < 32) : (not32 x).getLsbD i = !x.getLsbD i := by
  simp [not32, hi]

/-- The library's rotation reads two ranges of bits: below `s` the high bits that came around, from `s` on the bits
shifted up. In both the source index is the one of R14. -/
theorem getLsbD_rotl32 (x : Word) (s : BitVec 5) {i : Nat} (hi : i < 32) :
    (rotl32 x s).getLsbD i = x.getLsbD ((i + 32 - s.toNat) % 32) := by
  have hs : s.toNat < 32 := s.isLt
  rw [rotl32_eq_rotateLeft, BitVec.getLsbD_rotateLeft, Nat.mod_eq_of_lt hs]
  rcases lt_or_ge i s.toNat with wraps | shifted
  · have source : (i + 32 - s.toNat) % 32 = 32 - s.toNat + i := by omega
    simp [wraps, source]
  · have source : (i + 32 - s.toNat) % 32 = i - s.toNat := by omega
    simp [shifted.not_gt, source, hi]

/-- Settles O5, from the sum, complement and rotation laws of the primitives. -/
theorem primitivesComputeModuloAndRotate : Obligations.PrimitivesComputeModuloAndRotate :=
  ⟨toNat_add32, toNat_add64, fun x _ hi => getLsbD_not32 x hi, fun x s _ _ hi => getLsbD_rotl32 x s hi⟩

end Sys2Proof.Machine
end

section
/-! The digest register of 10_state.md R25, and the 128-bit form in which `EMIT` writes the four words into it (R15). -/

namespace Sys2Proof.Machine

/-- The weighted sum that `vec128` takes over bytes, at the four bytes of one word: the word itself, below what follows. -/
theorem foldr_bytes32 (w : Word) (n : Nat) :
    (bytes32 w).foldr (fun b n => b.toNat + 256 * n) n = w.toNat + 2 ^ 32 * n := by
  have hw := w.isLt
  simp only [bytes32, List.foldr_cons, List.foldr_nil, BitVec.extractLsb'_toNat, Nat.shiftRight_eq_div_pow]
  omega

/-- R15: as a 128-bit vector the serialization is the four words, the first lowest. -/
theorem vec128_ser (q : Quad) : vec128 (ser q) = q.d ++ q.c ++ q.b ++ q.a := by
  apply BitVec.eq_of_toNat_eq
  simp only [vec128, ser, List.foldr_append, foldr_bytes32, BitVec.toNat_ofNat, toNat_append_eq_sum]
  have ha := q.a.isLt
  have hb := q.b.isLt
  have hc := q.c.isLt
  have hd := q.d.isLt
  omega

/-- Settles O32: of the ten kinds of step, only the reset and `EMIT` write `DIG`. -/
theorem digestRegisterIsWrittenOnlyByEmit : Obligations.DigestRegisterIsWrittenOnlyByEmit := by
  intro s t hstep
  obtain ⟨u, rfl, hu⟩ := step_inversion hstep
  rw [State.nextPins_dig]
  rcases hu with ⟨hr, rfl⟩ | ⟨hr, hp, -, rfl⟩ | ⟨hr, hp, -, rfl⟩ | ⟨hr, hp, -, b, -, rfl⟩ | ⟨hr, hp, -, b, -, rfl⟩ |
    ⟨hr, hp, -, rfl⟩ | ⟨hr, hp, -, rfl⟩ | ⟨hr, hp, -, rfl⟩ | ⟨hr, hp, -, rfl⟩ | ⟨hr, hp, -, rfl⟩
  · simp [hr] -- reset
  on_goal 9 => simp [hr, hp, vec128_ser] -- `EMIT`
  all_goals simp [hr, hp] -- idle, the commands, the rounds, `FOLD`, `PAD2`

end Sys2Proof.Machine
end

section
/-! The message-word view of the buffer: 20_memory.md R41 and R42. -/

namespace Sys2Proof.Machine

/-- R15: a little-endian word in naturals, the byte at `4k` of weight 1 and each later one 256 times the one before. -/
theorem toNat_le32 (s : List Byte) (k : Nat) :
    (le32 s k).toNat = (s.getD (4 * k) 0).toNat + 2 ^ 8 * (s.getD (4 * k + 1) 0).toNat +
      2 ^ 16 * (s.getD (4 * k + 2) 0).toNat + 2 ^ 24 * (s.getD (4 * k + 3) 0).toNat := by
  rw [le32, toNat_append_eq_sum, toNat_append_eq_sum, toNat_append_eq_sum]
  omega

/-- R15: byte `i` of a little-endian word, counted from its lowest bits, is byte `4k + i` of the sequence. -/
theorem extractLsb'_le32 (s : List Byte) (k : Nat) {i : Nat} (hi : i < 4) :
    (le32 s k).extractLsb' (8 * i) 8 = s.getD (4 * k + i) 0 := by
  have h0 := (s.getD (4 * k) 0).isLt
  have h1 := (s.getD (4 * k + 1) 0).isLt
  have h2 := (s.getD (4 * k + 2) 0).isLt
  have h3 := (s.getD (4 * k + 3) 0).isLt
  apply BitVec.eq_of_toNat_eq
  rw [BitVec.extractLsb'_toNat, Nat.shiftRight_eq_div_pow, toNat_le32]
  interval_cases i
  · simp only [Nat.mul_zero, Nat.add_zero]; omega
  all_goals omega

/-- R42: the bytes of message word `g` stand at the offsets from `4g` on. -/
theorem msgWord_offset (g : BitVec 4) (i : Nat) :
    g ++ 0#2 + BitVec.ofNat 6 i = BitVec.ofNat 6 (4 * g.toNat + i) := by
  have base : (g ++ 0#2).toNat = 4 * g.toNat := by
    simp only [toNat_append_eq_sum, BitVec.toNat_ofNat]
    omega
  apply BitVec.eq_of_toNat_eq
  simp [base]

/-- R42: the byte read at `4g + i` is the one that `le32` takes from the list of the buffer's 64 bytes. -/
theorem readByte_msgWord_offset (m : Memory) (g : BitVec 4) {i : Nat} (hi : i < 4) :
    readByte m (g ++ 0#2 + BitVec.ofNat 6 i) = (bufBytes m).getD (4 * g.toNat + i) 0 := by
  rw [msgWord_offset, bufBytes_getD m _ (by omega)]

/-- R42 `M[g] = le32(BUF, g)`: both put the same four bytes together. -/
theorem msgWord_eq_le32 (m : Memory) (g : BitVec 4) : msgWord m g = le32 (bufBytes m) g.toNat := by
  have byte (i : Nat) (hi : i < 4) := readByte_msgWord_offset m g hi
  have byte0 : readByte m (g ++ 0#2) = (bufBytes m).getD (4 * g.toNat) 0 := by simpa using byte 0 (by omega)
  rw [le32, ← byte 3 (by omega), ← byte 2 (by omega), ← byte 1 (by omega), ← byte0]
  rfl

/-- R42: byte `i` of message word `g` is the buffer's byte at `4g + i`. -/
theorem extractLsb'_msgWord (m : Memory) (g : BitVec 4) {i : Nat} (hi : i < 4) :
    (msgWord m g).extractLsb' (8 * i) 8 = readByte m (BitVec.ofNat 6 (4 * g.toNat + i)) := by
  rw [msgWord_eq_le32, extractLsb'_le32 _ _ hi, bufBytes_getD m _ (by omega)]

/-- Settles O11, from the word as `le32` of the buffer's bytes and the bytes of a little-endian word. -/
theorem messageWordIsTheLittleEndianWordOfTheBuffer : Obligations.MessageWordIsTheLittleEndianWordOfTheBuffer :=
  fun m g => ⟨msgWord_eq_le32 m g, fun _ hi => extractLsb'_msgWord m g hi⟩

end Sys2Proof.Machine
end

section
/-! The command word of 30_encoding.md R59 to R62: its two fields `cmd[9:8]` and `cmd[7:0]`, the two masks that select them,
and the one decoded command as a condition on the fields. -/

namespace Sys2Proof

/-- R59: a command word is its operation above its byte. -/
theorem cmdOp_append_cmdByte (w : BitVec 10) : cmdOp w ++ cmdByte w = w :=
  BitVec.extractLsb'_append_extractLsb'

/-- R60: the mask `0x300` keeps the operation and clears the byte. -/
theorem and_opMask (w : BitVec 10) : w &&& 0x300 = cmdOp w ++ 0#8 := by
  have mask : (0x300 : BitVec 10) = BitVec.allOnes 2 ++ 0#8 := by decide
  calc w &&& 0x300
    _ = (cmdOp w ++ cmdByte w) &&& (BitVec.allOnes 2 ++ 0#8) := by rw [cmdOp_append_cmdByte, mask]
    _ = cmdOp w ++ 0#8 := by rw [BitVec.and_append, BitVec.and_allOnes, BitVec.and_zero]

/-- R61: the mask `0x0ff` keeps the byte and clears the operation. -/
theorem and_byteMask (w : BitVec 10) : w &&& 0x0ff = 0#2 ++ cmdByte w := by
  have mask : (0x0ff : BitVec 10) = 0#2 ++ BitVec.allOnes 8 := by decide
  calc w &&& 0x0ff
    _ = (cmdOp w ++ cmdByte w) &&& (0#2 ++ BitVec.allOnes 8) := by rw [cmdOp_append_cmdByte, mask]
    _ = 0#2 ++ cmdByte w := by rw [BitVec.and_append, BitVec.and_allOnes, BitVec.and_zero]

/-- R60: a row's match under the mask `0x300` says which operation the word has. -/
theorem and_opMask_eq_iff (w : BitVec 10) (op : BitVec 2) : w &&& 0x300 = op ++ 0#8 ↔ cmdOp w = op := by
  rw [and_opMask, BitVec.append_left_inj]

/-- R61: the word under the mask `0x0ff` is a byte exactly when that byte is its operand. -/
theorem and_byteMask_eq_iff (w : BitVec 10) (b : Byte) : w &&& 0x0ff = b.setWidth 10 ↔ cmdByte w = b := by
  have widen : b.setWidth 10 = 0#2 ++ b := by rw [BitVec.setWidth_eq_append (by decide)]; rfl
  rw [and_byteMask, widen, BitVec.append_right_inj]

/-- R60: what the decoder answers, one case per operation, on every word. -/
theorem decodeCmd_cases (w : BitVec 10) :
    (cmdOp w = 0 ∧ decodeCmd w = .nop) ∨ (cmdOp w = 1 ∧ decodeCmd w = .push (cmdByte w)) ∨
    (cmdOp w = 2 ∧ decodeCmd w = .final) ∨ (cmdOp w = 3 ∧ decodeCmd w = .init) := by
  have four : ∀ op : BitVec 2, op = 0 ∨ op = 1 ∨ op = 2 ∨ op = 3 := by decide
  rcases four (cmdOp w) with h | h | h | h <;> simp [decodeCmd, h]

theorem decodeCmd_eq_nop_iff (w : BitVec 10) : decodeCmd w = .nop ↔ cmdOp w = 0 := by
  rcases decodeCmd_cases w with ⟨hop, hc⟩ | ⟨hop, hc⟩ | ⟨hop, hc⟩ | ⟨hop, hc⟩ <;> simp [hop, hc]

theorem decodeCmd_eq_push_iff (w : BitVec 10) (b : Byte) :
    decodeCmd w = .push b ↔ cmdOp w = 1 ∧ cmdByte w = b := by
  rcases decodeCmd_cases w with ⟨hop, hc⟩ | ⟨hop, hc⟩ | ⟨hop, hc⟩ | ⟨hop, hc⟩ <;> simp [hop, hc]

theorem decodeCmd_eq_final_iff (w : BitVec 10) : decodeCmd w = .final ↔ cmdOp w = 2 := by
  rcases decodeCmd_cases w with ⟨hop, hc⟩ | ⟨hop, hc⟩ | ⟨hop, hc⟩ | ⟨hop, hc⟩ <;> simp [hop, hc]

theorem decodeCmd_eq_init_iff (w : BitVec 10) : decodeCmd w = .init ↔ cmdOp w = 3 := by
  rcases decodeCmd_cases w with ⟨hop, hc⟩ | ⟨hop, hc⟩ | ⟨hop, hc⟩ | ⟨hop, hc⟩ <;> simp [hop, hc]

/-- Settles O2: each command is one value of the operation, and the masks select the operation and the byte. -/
theorem everyCommandWordIsExactlyOneCommand : Obligations.EveryCommandWordIsExactlyOneCommand := fun w =>
  ⟨(decodeCmd_eq_nop_iff w).trans (and_opMask_eq_iff w 0).symm,
   fun b => (decodeCmd_eq_push_iff w b).trans (and_congr (and_opMask_eq_iff w 1) (and_byteMask_eq_iff w b)).symm,
   (decodeCmd_eq_final_iff w).trans (and_opMask_eq_iff w 2).symm,
   (decodeCmd_eq_init_iff w).trans (and_opMask_eq_iff w 3).symm,
   rfl⟩

end Sys2Proof
end

section
/-! The integrity of the two round tables of 40_constant_tables.md (R77). -/

namespace Sys2Proof.Machine

@[simp] theorem length_sCycle (c0 c1 c2 c3 : BitVec 5) : (sCycle c0 c1 c2 c3).length = 16 := rfl

theorem length_sTable : sTable.length = 64 := rfl

theorem length_kTable : kTable.length = 64 := rfl

/-- R74: a quartile repeats its 4-cycle. -/
theorem getElem?_sCycle (c0 c1 c2 c3 : BitVec 5) {i : Nat} (hi : i < 16) :
    (sCycle c0 c1 c2 c3)[i]? = [c0, c1, c2, c3][i % 4]? := by
  interval_cases i <;> rfl

/-- R77: the default of `rotAmount` is never read. -/
theorem some_rotAmount (j : BitVec 6) : some (rotAmount j) = sTable[j.toNat]? := by
  have hj : j.toNat < sTable.length := j.isLt
  rw [rotAmount, List.getD_eq_getElem _ _ hj, List.getElem?_eq_getElem hj]

/-- R74: rounds `0` to `15` of a table that begins with a quartile follow that quartile's 4-cycle. -/
theorem getElem?_sCycle_append_first (c0 c1 c2 c3 : BitVec 5) (rest : List (BitVec 5)) {r : Nat} (hr : r < 16) :
    (sCycle c0 c1 c2 c3 ++ rest)[16 * 0 + r]? = [c0, c1, c2, c3][r % 4]? := by
  rw [Nat.mul_zero, Nat.zero_add, List.getElem?_append_left hr, getElem?_sCycle _ _ _ _ hr]

/-- R74: the later rounds read the quartiles that follow, one quartile down. -/
theorem getElem?_sCycle_append_succ (c0 c1 c2 c3 : BitVec 5) (rest : List (BitVec 5)) (q r : Nat) :
    (sCycle c0 c1 c2 c3 ++ rest)[16 * (q + 1) + r]? = rest[16 * q + r]? := by
  have past : 16 * (q + 1) + r = (sCycle c0 c1 c2 c3).length + (16 * q + r) := by rw [length_sCycle]; omega
  rw [past, List.getElem?_append_right (Nat.le_add_right ..), Nat.add_sub_cancel_left]

/-- R74: place `r` of quartile `q` is place `r mod 4` of that quartile's 4-cycle. -/
theorem getElem?_sTable {q r : Nat} (hq : q < 4) (hr : r < 16) :
    sTable[16 * q + r]? =
      (([[7, 12, 17, 22], [5, 9, 14, 20], [4, 11, 16, 23], [6, 10, 15, 21]] : List (List (BitVec 5))).getD q [])[r % 4]? := by
  have quartiles : sTable =
      sCycle 7 12 17 22 ++ (sCycle 5 9 14 20 ++ (sCycle 4 11 16 23 ++ (sCycle 6 10 15 21 ++ []))) := rfl
  rw [quartiles]
  match q, hq with
  | 0, _ => exact getElem?_sCycle_append_first _ _ _ _ _ hr
  | 1, _ => rw [getElem?_sCycle_append_succ]; exact getElem?_sCycle_append_first _ _ _ _ _ hr
  | 2, _ =>
    iterate 2 rw [getElem?_sCycle_append_succ]
    exact getElem?_sCycle_append_first _ _ _ _ _ hr
  | 3, _ =>
    iterate 3 rw [getElem?_sCycle_append_succ]
    exact getElem?_sCycle_append_first _ _ _ _ _ hr

/-- Settles O7, by splitting the round into its quartile and its place there. -/
theorem rotationTableFollowsTheFourCycles : Obligations.RotationTableFollowsTheFourCycles := by
  refine ⟨length_sTable, length_kTable, fun j => ?_⟩
  have quartile : j.toNat / 16 < 4 := by omega
  have place : j.toNat % 16 < 16 := by omega
  have cycle : j.toNat % 16 % 4 = j.toNat % 4 := by omega
  rw [some_rotAmount, ← cycle, ← getElem?_sTable quartile place, Nat.div_add_mod]

end Sys2Proof.Machine
end

section
/-! The round functions of 41_block_compressor.md R81, bit by bit. -/

namespace Sys2Proof.Machine

/-- R81: `f0` selects by `b`. -/
theorem getLsbD_f0 (b c d : Word) {i : Nat} (hi : i < 32) :
    (f0 b c d).getLsbD i = if b.getLsbD i then c.getLsbD i else d.getLsbD i := by
  rw [f0, BitVec.getLsbD_or, BitVec.getLsbD_and, BitVec.getLsbD_and, getLsbD_not32 b hi]
  cases b.getLsbD i <;> simp

/-- R81: `f1` selects by `d`; it is `f0` with its arguments in another order. -/
theorem getLsbD_f1 (b c d : Word) {i : Nat} (hi : i < 32) :
    (f1 b c d).getLsbD i = if d.getLsbD i then b.getLsbD i else c.getLsbD i :=
  getLsbD_f0 d b c hi

theorem getLsbD_f2 (b c d : Word) (i : Nat) :
    (f2 b c d).getLsbD i = (b.getLsbD i ^^ c.getLsbD i ^^ d.getLsbD i) := by
  rw [f2, BitVec.getLsbD_xor, BitVec.getLsbD_xor]

theorem getLsbD_f3 (b c d : Word) {i : Nat} (hi : i < 32) :
    (f3 b c d).getLsbD i = (c.getLsbD i ^^ (b.getLsbD i || !d.getLsbD i)) := by
  rw [f3, BitVec.getLsbD_xor, BitVec.getLsbD_or, getLsbD_not32 d hi]

/-- Settles O8, from the bit law of each of the four functions. -/
theorem roundFunctionsBitByBit : Obligations.RoundFunctionsBitByBit := fun b c d i hi =>
  ⟨getLsbD_f0 b c d hi, getLsbD_f1 b c d hi, getLsbD_f2 b c d i, getLsbD_f3 b c d hi⟩

end Sys2Proof.Machine
end

section
/-! The rounds of 41_block_compressor.md: the pure round (R84) and the four round steps (R86 to R89), both from the one
body they share. -/

namespace Sys2Proof.Machine

/-- R84: the body of a round in the library's terms, its rotation the library's. -/
theorem roundBody_eq (j : BitVec 6) (w : Quad) (f m : Word) :
    roundBody j w f m =
      ⟨w.d, w.b + (w.a + f + roundConst j + m).rotateLeft (rotAmount j).toNat, w.b, w.c⟩ := by
  rw [← rotl32_eq_rotateLeft]
  rfl

/-- R23: the quartile `J[5:4]` is the quotient of the index by 16. -/
theorem quartile_eq_iff (j : BitVec 6) (q : BitVec 2) : quartile j = q ↔ j.toNat / 16 = q.toNat := by
  have quotient : (quartile j).toNat = j.toNat / 16 := by
    rw [quartile, BitVec.extractLsb'_toNat, Nat.shiftRight_eq_div_pow]
    omega
  rw [← quotient, BitVec.toNat_inj]

/-- Settles O10: the four cases of the quartile are those of the quotient by 16, and in each the round is the shared body. -/
theorem roundRotatesTheSumIntoB : Obligations.RoundRotatesTheSumIntoB := by
  intro j a b c d msg
  simp only [md5Round, quartile_eq_iff, roundBody_eq]
  by_cases h0 : j.toNat / 16 = 0
  · simp [h0, f0, g0, not32]
  by_cases h1 : j.toNat / 16 = 1
  · simp [h1, f1, g1, not32]
  by_cases h2 : j.toNat / 16 = 2
  · simp [h2, f2, g2]
  · simp [h0, h1, h2, f3, g3, not32]

/-- R42, R86 to R89: on a message word of the buffer the body of a round gives the registers after that round. -/
theorem roundBody_msgWord (s : State) (f : Word) {g : Nat} (hg : g < 16) :
    roundBody s.j s.w f (msgWord s.buf (BitVec.ofNat 4 g)) = s.afterRound f g := by
  have index : (BitVec.ofNat 4 g).toNat = g := by rw [BitVec.toNat_ofNat, Nat.mod_eq_of_lt hg]
  rw [roundBody_eq, msgWord_eq_le32, index]
  rfl

/-- R89: the index wraps from 63 to 0. -/
theorem roundIndex_succ (j : BitVec 6) : j + 1 = BitVec.ofNat 6 ((j.toNat + 1) % 64) := by
  bv_omega

/-- Settles O21: each step is the shared body on the word of its own index; only `RND3` looks at the last round. -/
theorem roundStepsFollowTheirPseudocode : Obligations.RoundStepsFollowTheirPseudocode := by
  intro s hround
  have last : s.j = 63 ↔ s.j.toNat = 63 := BitVec.toNat_inj.symm
  refine ⟨fun quartile0 => ?_, fun _ => ?_, fun _ => ?_, fun _ => ?_⟩
  all_goals rw [← roundBody_msgWord s _ (by omega)]
  on_goal 4 => simp only [← roundIndex_succ, ← last, ← hround] -- `RND3`
  all_goals rfl

end Sys2Proof.Machine
end

section
/-! The add-back of 41_block_compressor.md R90. -/

namespace Sys2Proof.Machine

theorem addQuad_eq (x y : Quad) : addQuad x y = ⟨x.a + y.a, x.b + y.b, x.c + y.c, x.d + y.d⟩ := rfl

/-- Settles O22, from the one record of `FOLD` at each value of `FIN`. -/
theorem foldAddsTheWorkingCopiesBack : Obligations.FoldAddsTheWorkingCopiesBack := by
  intro s sum
  refine ⟨fun hfin => ?_, fun hfin => ?_, fun hfin => ?_⟩
  all_goals exact (execFold_eq s).trans (by simp [hfin, addQuad_eq, add64, sum])

end Sys2Proof.Machine
end

section
/-! The padded sequence of 42_padding_builder.md: its zero count (R99), and its length and its four regions (R98, R101). -/

namespace Sys2Proof.Machine

/-- R99: the zero count brings the tail, the marker and the zeros to 8 bytes before a block's end. -/
theorem add_zeroCount_mod {n : Nat} (hn : n ≤ 63) : (n + 1 + zeroCount n) % 64 = 56 := by
  rw [zeroCount]
  omega

/-- R99: counts that answer the congruence differ by at least 64, and the zero count is below 64. -/
theorem zeroCount_le {n z : Nat} (hn : n ≤ 63) (hz : (n + 1 + z) % 64 = 56) : zeroCount n ≤ z := by
  rw [zeroCount]
  omega

theorem zeroCount_eq_ite {n : Nat} (hn : n ≤ 63) : zeroCount n = if n ≤ 55 then 55 - n else 119 - n := by
  rw [zeroCount]
  split <;> omega

/-- R101: the tail, the marker, the zeros and the length field fill one block or two. -/
theorem add_zeroCount_eq_ite {n : Nat} (hn : n ≤ 63) : n + 1 + zeroCount n + 8 = if n ≤ 55 then 64 else 128 := by
  rw [zeroCount_eq_ite hn]
  split <;> omega

/-- R98: what `pad` puts before the length field, the tail, the marker and the zeros. -/
theorem length_beforeLengthField (tail : List Byte) :
    (tail ++ [0x80] ++ List.replicate (zeroCount tail.length) (0x00 : Byte)).length =
      tail.length + 1 + zeroCount tail.length := by
  simp only [List.length_append, List.length_singleton, List.length_replicate]

theorem length_pad (tail : List Byte) (tb : BitVec 64) :
    (pad tail tb).length = tail.length + 1 + zeroCount tail.length + 8 := by
  rw [pad, List.length_append, length_beforeLengthField, bytes64_length]

/-- R15: the eight bytes of `bytes64`, least significant first. -/
theorem getElem?_bytes64 (v : BitVec 64) {i : Nat} (hi : i < 8) :
    (bytes64 v)[i]? = some (v.extractLsb' (8 * i) 8) := by
  simp [bytes64, hi]

section
variable (tail : List Byte) (tb : BitVec 64) {i : Nat}

/-- R98: the padded sequence begins with the tail itself. -/
theorem getElem?_pad_tail (hi : i < tail.length) : (pad tail tb)[i]? = tail[i]? := by
  rw [pad, List.append_assoc, List.append_assoc, List.getElem?_append_left hi]

/-- R98 item 1: the marker stands immediately after the tail. -/
theorem getElem?_pad_marker : (pad tail tb)[tail.length]? = some 0x80 := by
  simp [pad]

/-- R98 item 2: zeros from the marker to the length field. -/
theorem getElem?_pad_zero (after : tail.length < i) (before : i < tail.length + 1 + zeroCount tail.length) :
    (pad tail tb)[i]? = some 0x00 := by
  have marked : (tail ++ [(0x80 : Byte)]).length = tail.length + 1 := List.length_append
  rw [pad, List.getElem?_append_left (by rwa [length_beforeLengthField]), List.getElem?_append_right (by omega),
    List.getElem?_replicate_of_lt (by omega)]

/-- R98 item 3, R100: byte `k` of the length field, counted from the field's own start. -/
theorem getElem?_pad_lengthField {k : Nat} (hk : k < 8) :
    (pad tail tb)[tail.length + 1 + zeroCount tail.length + k]? = some (tb.extractLsb' (8 * k) 8) := by
  rw [pad, ← length_beforeLengthField, List.getElem?_append_right (Nat.le_add_right ..), Nat.add_sub_cancel_left, getElem?_bytes64 tb hk]

end

/-- Settles O38, from the zero count and the four regions of the padded sequence. -/
theorem paddingFillsOneOrTwoBlocks : Obligations.PaddingFillsOneOrTwoBlocks := by
  refine ⟨fun n hn => ⟨add_zeroCount_mod hn, fun z => zeroCount_le hn, zeroCount_eq_ite hn⟩, ?_⟩
  intro tail tb htail len
  have total : tail.length + 1 + zeroCount tail.length + 8 = len := add_zeroCount_eq_ite htail
  refine ⟨(length_pad tail tb).trans total, fun i hi => ?_⟩
  rcases lt_trichotomy i tail.length with inTail | rfl | after
  · rw [if_pos inTail, getElem?_pad_tail tail tb inTail]
  · rw [if_neg (lt_irrefl _), if_pos rfl, getElem?_pad_marker]
  rw [if_neg after.not_gt, if_neg after.ne']
  rcases lt_or_ge i (len - 8) with zeros | field
  · rw [if_pos zeros, getElem?_pad_zero tail tb after (by omega)]
  · have place : i = tail.length + 1 + zeroCount tail.length + (i - (len - 8)) := by omega
    rw [if_neg field.not_gt, ← getElem?_pad_lengthField tail tb (by omega), ← place]

end Sys2Proof.Machine
end

section
/-! The commands `NOP` and `INIT` and the micro-step `EMIT` of 43_digest_engine.md (R108, R109, R112). `INIT` and `EMIT` zero
the whole buffer, which in canonical form is the empty list. -/

namespace Sys2Proof.Machine

/-- R44: zeros from end to end are, in canonical form, the empty list. -/
theorem zeroFill_all {m : Memory} (hm : Memory.wf m) : zeroFill m 0 64 = [] := by
  simpa only [State.freshContext_buf] using State.freshContext_buf_eq { State.reset with buf := m } hm

/-- R108. -/
theorem exec_nop (s : State) : exec .nop s = .next s := rfl

/-- R58: with no command presented the idle step changes nothing. -/
theorem exec_idle_of_quiet {s : State} (hquiet : s.pins.cmdValid = false) : exec .idle s = .next s := by
  simp [exec, execIdle, hquiet]

/-- R109, its pseudocode on a canonical buffer. -/
theorem exec_init {s : State} (hbuf : Memory.wf s.buf) :
    exec .init s = .next { s with h := iv, len := 0, cnt := 0, buf := [], dv := false } := by
  rw [← zeroFill_all hbuf]
  exact execInit_eq s

/-- R112, its pseudocode on a canonical buffer. -/
theorem exec_emit {s : State} (hbuf : Memory.wf s.buf) :
    exec .emit s = .next { s with
      h := iv, len := 0, cnt := 0, buf := [], dig := vec128 (ser s.h), dv := true, ph := .idle } := by
  rw [← zeroFill_all hbuf]
  exact execEmit_eq s

/-- Settles O13: `NOP` is the identity, as the idle step without a command is. -/
theorem nopWritesNothing : Obligations.NopWritesNothing := fun s =>
  ⟨exec_nop s, fun w hop => (decodeCmd_eq_nop_iff w).mpr hop,
   fun hquiet => (exec_idle_of_quiet hquiet).trans (exec_nop s).symm, rfl⟩

/-- Settles O14: on a canonical buffer `INIT` leaves the empty list, which reads 0 everywhere. -/
theorem initGivesTheInitialContext : Obligations.InitGivesTheInitialContext :=
  ⟨fun w hop => (decodeCmd_eq_init_iff w).mpr hop, exec_init Memory.wf_nil,
   fun _ hbuf => ⟨[], exec_init hbuf, readByte_nil⟩⟩

/-- Settles O23: the serialization of the old `H` is its four words, and the buffer is left as the empty list. -/
theorem emitDeliversTheDigestAndReenters : Obligations.EmitDeliversTheDigestAndReenters := by
  intro s hbuf
  refine ⟨[], ?_, readByte_nil⟩
  rw [exec_emit hbuf, vec128_ser]
  rfl

end Sys2Proof.Machine
end

section
/-! The two digests that 43_digest_engine.md R125 prints, computed by the kernel from the definition of `md5` (R124). -/

namespace Sys2Proof.Machine

theorem md5_nil : md5 [] =
    [0xd4, 0x1d, 0x8c, 0xd9, 0x8f, 0x00, 0xb2, 0x04, 0xe9, 0x80, 0x09, 0x98, 0xec, 0xf8, 0x42, 0x7e] := by
  decide +kernel

theorem md5_abc : md5 [0x61, 0x62, 0x63] =
    [0x90, 0x01, 0x50, 0x98, 0x3c, 0xd2, 0x4f, 0xb0, 0xd6, 0x96, 0x3f, 0x7d, 0x28, 0xe1, 0x7f, 0x72] := by
  decide +kernel

/-- Settles O40, from the two computed digests. -/
theorem knownVectorsMatch : Obligations.KnownVectorsMatch := ⟨md5_nil, md5_abc⟩

end Sys2Proof.Machine
end

section
/-! The clock of a host that does not reset, and the compression of one block: 64 rounds and `FOLD` (41_block_compressor.md R84
to R93), with the whole state after every step. -/

namespace Sys2Proof.Machine

/-! ## The pins after `n` edges -/

/-- The state with the levels that its host drives `n` edges later; no register is touched (log entry 1). -/
def State.later (n : Nat) (s : State) : State :=
  { s with pins := (s.pins :: s.script).getD n Pins.quiet, script := s.script.drop n }

section
variable (n : Nat) (s : State)

@[simp] theorem State.later_h : (s.later n).h = s.h := rfl
@[simp] theorem State.later_w : (s.later n).w = s.w := rfl
@[simp] theorem State.later_buf : (s.later n).buf = s.buf := rfl
@[simp] theorem State.later_len : (s.later n).len = s.len := rfl
@[simp] theorem State.later_cnt : (s.later n).cnt = s.cnt := rfl
@[simp] theorem State.later_ph : (s.later n).ph = s.ph := rfl
@[simp] theorem State.later_j : (s.later n).j = s.j := rfl
@[simp] theorem State.later_fin : (s.later n).fin = s.fin := rfl
@[simp] theorem State.later_dig : (s.later n).dig = s.dig := rfl
@[simp] theorem State.later_dv : (s.later n).dv = s.dv := rfl

end

theorem State.later_zero (s : State) : s.later 0 = s := rfl

/-- One edge after `n`: the host's next levels, or none. -/
theorem State.nextPins_pins_later {n : Nat} {s t : State} (h : t.script = (s.later n).script) :
    t.nextPins.pins = (s.later (n + 1)).pins := by
  simp [h, State.later, List.head?_drop]

theorem State.nextPins_script_later {n : Nat} {s t : State} (h : t.script = (s.later n).script) :
    t.nextPins.script = (s.later (n + 1)).script := by
  simp [h, State.later]

/-- While no reset is promised, none stands on the pins. -/
theorem State.rst_later {n m : Nat} {s : State} (hr : s.unreset m) (hn : n < m) : (s.later n).pins.rst = false := by
  rcases lt_or_ge n (s.pins :: s.script).length with listed | past
  · refine hr _ ?_
    simp only [State.later, List.getD_eq_getElem _ _ listed]
    exact List.mem_take_iff_getElem.mpr ⟨n, by omega, rfl⟩
  · simp only [State.later, List.getD_eq_default _ _ past]
    rfl

/-- One more step at the end of a run. -/
theorem run_snoc {n : Nat} {s t u : State} (hrun : run n s = .next t) (hstep : step t = .next u) :
    run (n + 1) s = .next u := by
  rw [run_add n 1 s t hrun, run_succ 0 t u hstep, run_zero]

/-! ## The rounds of a block -/

/-- The state that `n` rounds leave, from a state at round 0. -/
def State.afterRounds (n : Nat) (s : State) : State :=
  { s.later n with
    w := rounds n s.w (msgWord s.buf), j := BitVec.ofNat 6 n, ph := if n = 64 then .fold else .round }

theorem State.afterRounds_ne_idle (n : Nat) (s : State) : (s.afterRounds n).ph ≠ .idle := by
  simp only [State.afterRounds]
  split <;> simp

/-- One round more, before the 64th. -/
theorem step_afterRounds {n : Nat} {s : State} (hn : n < 64) (hr : s.unreset (n + 1)) :
    step (s.afterRounds n) = .next (s.afterRounds (n + 1)) := by
  have hrst : (s.afterRounds n).pins.rst = false := State.rst_later hr n.lt_succ_self
  have hph : (s.afterRounds n).ph = .round := if_neg hn.ne
  have last : BitVec.ofNat 6 n = 63#6 ↔ n = 63 := by
    rw [← BitVec.toNat_inj, BitVec.toNat_ofNat, BitVec.toNat_ofNat]
    omega
  rw [step_of_round hrst hph]
  congr 1
  ext1
  case pins => exact State.nextPins_pins_later rfl
  case script => exact State.nextPins_script_later rfl
  all_goals simp [State.afterRounds, rounds_succ, last, BitVec.ofNat_add]

/-- R95, the rounds: what each of the 64 steps after `START` leaves. -/
theorem run_rounds {s : State} (hph : s.ph = .round) (hj : s.j = 0) {n : Nat} (hn : n ≤ 64) (hr : s.unreset n) :
    run n s = .next (s.afterRounds n) := by
  induction n with
  | zero =>
    rw [run_zero]
    congr 1
    ext1 <;> simp [State.afterRounds, State.later_zero, hph, hj]
  | succ n ih => exact run_snoc (ih (by omega) (State.unreset_mono hr (by omega))) (step_afterRounds hn hr)

/-! ## The add-back -/

/-- R93: the compression of the buffer's bytes, with the message words that the rounds read. -/
theorem compress_bufBytes (m : Memory) (h : Quad) :
    compress (bufBytes m) h = addQuad h (rounds 64 h (msgWord m)) := by
  rw [compress, funext (msgWord_eq_le32 m)]

/-- R93, R95: 64 rounds and `FOLD`, from the state `START` leaves. -/
theorem run_block {s : State} (hph : s.ph = .round) (hj : s.j = 0) (hw : s.w = s.h) (hr : s.unreset 65) :
    run 65 s = .next { s.later 65 with
      h := compress (bufBytes s.buf) s.h, w := rounds 64 s.h (msgWord s.buf), j := 0
      cnt := if s.fin = .data then add64 s.cnt 64 else s.cnt
      ph := match s.fin with | .data => .idle | .tailMore => .pad2 | .tailLast => .emit } := by
  have hrun := run_rounds hph hj le_rfl (State.unreset_mono hr (by omega))
  have hrst : (s.afterRounds 64).pins.rst = false := State.rst_later hr (by omega)
  rw [run_snoc hrun (step_of_fold hrst rfl), compress_bufBytes]
  congr 1
  ext1
  case pins => exact State.nextPins_pins_later rfl
  case script => exact State.nextPins_script_later rfl
  case ph => exact State.nextPins_ph _
  all_goals simp [State.afterRounds, hw]

end Sys2Proof.Machine
end

section
/-! The first tail block in the buffer: every byte that `PAD1` leaves (42_padding_builder.md R102), and the block of the empty
stream. -/

namespace Sys2Proof.Machine

/-- R102: what every tail block keeps, the marker and the zeros after it. -/
theorem readByte_markTail {m : Memory} (hm : Memory.wf m) (len a : Offset) :
    readByte (zeroFill (writeByte m len 0x80) (len.toNat + 1) 64) a =
      if a.toNat < len.toNat then readByte m a else if a = len then 0x80 else 0x00 := by
  rw [readByte_zeroFill _ _ _ _ (writeByte_wf _ _ _ hm) le_rfl, readByte_writeByte _ _ _ _ hm]
  rcases lt_trichotomy a.toNat len.toNat with tail | mark | after
  · rw [if_neg (by omega), if_neg (by rintro rfl; omega), if_pos tail]
  · obtain rfl := BitVec.eq_of_toNat_eq mark
    rw [if_neg (by omega), if_pos rfl, if_neg (lt_irrefl _), if_pos rfl]
  · rw [if_pos ⟨after, a.isLt⟩, if_neg after.not_gt, if_neg (by rintro rfl; omega)]

/-- R102: the tail is kept, 0x80 follows it, then zeros, and in the last eight bytes the bit count where it fits. -/
theorem readByte_padFirst {s : State} (hbuf : Memory.wf s.buf) (a : Offset) :
    readByte s.padFirst.buf a =
      if a.toNat < s.len.toNat then readByte s.buf a
      else if a = s.len then 0x80
      else if s.len.toNat ≤ 55 ∧ 56 ≤ a.toNat then (totalBits s.cnt s.len).extractLsb' (8 * (a.toNat - 56)) 8
      else 0x00 := by
  have markedWf := zeroFill_wf _ (s.len.toNat + 1) 64 (writeByte_wf _ s.len 0x80 hbuf)
  by_cases fits : s.len.toNat ≤ 55
  · simp only [State.padFirst, if_pos fits, State.startBlock_buf]
    rw [readByte_memWrite8 _ _ _ markedWf, readByte_markTail hbuf]
    by_cases field : 56 ≤ a.toNat
    · have notTail : ¬ a.toNat < s.len.toNat := by omega
      have notMark : a ≠ s.len := fun e => by rw [e] at field; omega
      rw [if_pos field, if_neg notTail, if_neg notMark, if_pos ⟨fits, field⟩]
    · simp [field]
  · simp only [State.padFirst, if_neg fits, State.startBlock_buf]
    rw [readByte_markTail hbuf]
    simp [fits]

/-- The stream with nothing in it: the marker alone, since the bit count is 0 as well. -/
theorem State.padFirst_buf_empty {s : State} (hbuf : Memory.wf s.buf) (hlen : s.len = 0) (hcnt : s.cnt = 0) :
    s.padFirst.buf = [(0, 0x80)] := by
  refine buffer_ext _ _ (State.padFirst_wf s hbuf) rfl fun a => ?_
  have noBits : totalBits 0 0 = 0 := rfl
  have noTail : ¬ a.toNat < (0 : Offset).toNat := Nat.not_lt_zero _
  rw [readByte_padFirst hbuf, hlen, hcnt, noBits, if_neg noTail]
  by_cases first : a = 0
  · simp [first, readByte, Memory.lookup]
  · have unlisted : 0 ≠ a.toNat := fun e => first (BitVec.eq_of_toNat_eq e.symm)
    rw [if_neg first]
    simp [unlisted, readByte, Memory.lookup, Memory.unlisted]

/-- R98, R105: that buffer is the padding of the empty tail. -/
theorem bufBytes_marker : bufBytes [(0, 0x80)] = pad [] 0 := by decide

end Sys2Proof.Machine
end

section
/-! `FINAL` on a tail that leaves room for the bit count (43_digest_engine.md R111): 67 steps, busy until the last, which
delivers the digest. -/

namespace Sys2Proof.Machine

/-- R58: a command offered to the engine is the step. -/
theorem step_of_offered {c : Command} {s u : State} (h : s.offered c) (hexec : exec c.instr s = .next u) :
    step s = .next u.nextPins := by
  obtain ⟨hph, hrst, hvalid, rfl⟩ := h
  have accepted : exec .idle s = .next u := by
    rw [← hexec, ← accept_eq]
    exact if_pos hvalid
  simp [step, hrst, State.select, hph, accepted, advance]

/-- R111: the two writes of `FINAL` do not meet. -/
theorem State.clearValid_padFirst (s : State) : s.clearValid.padFirst = s.padFirst.clearValid := by
  by_cases hlen : s.len.toNat ≤ 55 <;> simp [State.padFirst, State.clearValid, State.startBlock, hlen]

/-- The state that accepting `FINAL` leaves, at round 0 of the first tail block. -/
def State.finalAccepted (s : State) : State := s.clearValid.padFirst.nextPins

@[simp] theorem State.finalAccepted_buf (s : State) : s.finalAccepted.buf = s.padFirst.buf := by
  rw [State.finalAccepted, State.nextPins_buf, State.clearValid_padFirst, State.clearValid_buf]

@[simp] theorem State.finalAccepted_h (s : State) : s.finalAccepted.h = s.h := by simp [State.finalAccepted]
@[simp] theorem State.finalAccepted_w (s : State) : s.finalAccepted.w = s.h := by simp [State.finalAccepted]
@[simp] theorem State.finalAccepted_ph (s : State) : s.finalAccepted.ph = .round := by simp [State.finalAccepted]
@[simp] theorem State.finalAccepted_j (s : State) : s.finalAccepted.j = 0 := by simp [State.finalAccepted]
@[simp] theorem State.finalAccepted_fin (s : State) :
    s.finalAccepted.fin = if s.len.toNat ≤ 55 then .tailLast else .tailMore :=
  (State.nextPins_fin _).trans (State.padFirst_fin _)

theorem State.finalAccepted_unreset {n : Nat} {s : State} (hr : s.unreset (n + 1)) : s.finalAccepted.unreset n :=
  State.unreset_next (State.unreset_congr hr (State.padFirst_pins _) (State.padFirst_script _))

theorem run_of_final {s : State} (hoffer : s.offered .final) (n : Nat) : run (n + 1) s = run n s.finalAccepted :=
  run_succ n s _ (step_of_offered hoffer rfl)

/-- R93, R102: the one tail block goes through the compressor, and the digest is due. -/
theorem run_finalAccepted {s : State} (hlen : s.len.toNat ≤ 55) (hr : s.finalAccepted.unreset 66) :
    ∃ t, run 65 s.finalAccepted = .next t ∧ t.ph = .emit ∧ t.pins.rst = false ∧
      t.h = compress (bufBytes s.padFirst.buf) s.h := by
  have hrun := run_block (State.finalAccepted_ph s) (State.finalAccepted_j s) (by simp) (State.unreset_mono hr (by omega))
  exact ⟨_, hrun, by simp [hlen], State.rst_later hr (by omega), by simp⟩

/-- R91: no command is accepted before `EMIT` has run. -/
theorem not_ready_after_final {s : State} (hoffer : s.offered .final) (hlen : s.len.toNat ≤ 55) (hr : s.unreset 67)
    {k : Nat} (hk : k < 66) : ∃ t, run (k + 1) s = .next t ∧ t.ready = false := by
  have hr' := State.finalAccepted_unreset hr
  rw [run_of_final hoffer]
  rcases Nat.lt_or_ge k 65 with rounds | block
  · have hrun := run_rounds (State.finalAccepted_ph s) (State.finalAccepted_j s) (Nat.le_of_lt_succ rounds)
      (State.unreset_mono hr' (by omega))
    exact ⟨_, hrun, by simpa [State.ready] using State.afterRounds_ne_idle k s.finalAccepted⟩
  · obtain ⟨t, hrun, hph, -, -⟩ := run_finalAccepted hlen hr'
    obtain rfl : k = 65 := by omega
    exact ⟨t, hrun, by simp [State.ready, hph]⟩

/-- R111, R112: 67 steps after the offer the digest is out. -/
theorem run_final_digest {s : State} (hoffer : s.offered .final) (hlen : s.len.toNat ≤ 55) (hr : s.unreset 67) :
    ∃ t, run 67 s = .next t ∧ t.ready = true ∧ t.dv = true ∧
      t.dig = vec128 (ser (compress (bufBytes s.padFirst.buf) s.h)) := by
  obtain ⟨t, hrun, hph, hrst, hh⟩ := run_finalAccepted hlen (State.finalAccepted_unreset hr)
  refine ⟨_, (run_of_final hoffer 66).trans (run_snoc hrun (step_of_emit hrst hph)), ?_, ?_, ?_⟩
  · simp [State.ready]
  · simp
  · simp [hh]

end Sys2Proof.Machine
end

section
/-! The digest of the empty stream (43_digest_engine.md R120), on the machine and at the command level. -/

namespace Sys2Proof.Machine

/-- R113: one block is compressed once. -/
theorem compressAll_block {x : List Byte} (hx : x.length = 64) (h : Quad) : compressAll x h = compress x h := by
  simp [compressAll, blocks, hx, List.take_of_length_le hx.le]

/-- R124: the empty sequence is its padding block, compressed from `IV`. -/
theorem md5_nil_eq : md5 [] = ser (compressAll (pad [] 0) iv) := rfl

/-- R120: the number that `DIG` shows. -/
theorem vec128_md5_nil : vec128 (md5 []) = 0x7e42f8ec980980e904b2008fd98c1dd4 := by
  rw [md5_nil]
  decide

/-- R120 on the machine's buffer: `PAD1` leaves the padding block of the empty sequence. -/
theorem compress_padFirst_fresh {s : State} (hbuf : Memory.wf s.buf) (hfresh : s.fresh) :
    vec128 (ser (compress (bufBytes s.padFirst.buf) s.h)) = 0x7e42f8ec980980e904b2008fd98c1dd4 := by
  obtain ⟨hh, hlen, hcnt⟩ := hfresh
  rw [State.padFirst_buf_empty hbuf hlen hcnt, bufBytes_marker, hh, ← compressAll_block (length_pad [] 0), ← md5_nil_eq,
    vec128_md5_nil]

/-- R120 at the command level: `FINAL` leaves the initial context, so another one digests the empty sequence. -/
theorem Idle.exec_final_final (x : Idle) : ((x.exec .final).exec .final).dig = vec128 (md5 []) := by
  rw [md5_nil_eq]
  rfl

/-- Settles O50: on the machine the empty tail is one block, and the digest is delivered by the 67th step. -/
theorem secondFinalDigestsTheEmptySequence : Obligations.SecondFinalDigestsTheEmptySequence := by
  refine ⟨fun s hbuf hfresh hoffer hr => ?_, fun x => (Idle.exec_final_final x).trans vec128_md5_nil⟩
  have hlen : s.len.toNat ≤ 55 := by
    obtain ⟨-, hzero, -⟩ := hfresh
    simp [hzero]
  have hr67 := State.unreset_mono hr (show 67 ≤ 133 by omega)
  obtain ⟨t, hrun, hready, hdv, hdig⟩ := run_final_digest hoffer hlen hr67
  exact ⟨66, t, hrun, fun k hk => not_ready_after_final hoffer hlen hr67 hk, hready, hdv,
    hdig.trans (compress_padFirst_fresh hbuf hfresh)⟩

end Sys2Proof.Machine
end

section
/-! No step faults and none is refused (60_exceptions.md R138). -/

namespace Sys2Proof.Machine

/-- R147: a step under `rst` is the reset of the engine, whatever phase the state is in. -/
theorem step_of_reset {s : State} (hr : s.pins.rst = true) : step s = .next s.resetEngine.nextPins := by
  simp [step, hr, advance]

/-- R58, R63: a step without `rst` is the selected instruction, then the clock edge. -/
theorem step_of_exec {s u : State} (hr : s.pins.rst = false) (hexec : exec s.select s = .next u) :
    step s = .next u.nextPins := by
  simp [step, hr, hexec, advance]

/-- Settles O27: under `rst` the step is the reset, otherwise it is an instruction, and each of those answers a next state. -/
theorem everyStepAnswersANextState : Obligations.EveryStepAnswersANextState := by
  intro s
  cases hr : s.pins.rst with
  | true => exact ⟨_, step_of_reset hr⟩
  | false =>
    obtain ⟨u, hexec⟩ := exec_next s.select s
    exact ⟨_, step_of_exec hr hexec⟩

end Sys2Proof.Machine
end

section
/-! What the host sees right after a reset (70_reset_and_hazards.md R147). -/

namespace Sys2Proof.Machine

/-- R28: the serialization of `IV` as the number that `SNAP` shows. -/
theorem vec128_ser_iv : vec128 (ser iv) = 0x1032547698badcfeefcdab8967452301 := by
  rw [vec128_ser]
  rfl

/-- The host's levels are no part of the outputs. -/
@[simp] theorem State.nextPins_outputs (s : State) : s.nextPins.outputs = s.outputs := by
  simp [State.outputs, State.ready, State.snap]

@[simp] theorem State.resetEngine_outputs (s : State) :
    s.resetEngine.outputs = ⟨true, 0x1032547698badcfeefcdab8967452301, 0, false⟩ := by
  simp [State.outputs, State.ready, State.snap, vec128_ser_iv]

/-- Settles O26: the step is the reset of the engine, and the clock edge after it moves only the host's levels. -/
theorem resetWinsAndGivesTheResetState : Obligations.ResetWinsAndGivesTheResetState := by
  intro s hr
  refine ⟨s.resetEngine.nextPins, step_of_reset hr, ?_⟩
  simp [iv]

end Sys2Proof.Machine
end

section
/-! The decoder and the encoder of 30_encoding.md on patterns cut into their fields (R59, R63, R64), and the twelve rows of the
opcode table. -/

namespace Sys2Proof

open Machine

/-! ## The command word -/

@[simp] theorem cmdOp_append (op : BitVec 2) (b : Byte) : cmdOp (op ++ b) = op := BitVec.extractLsb'_append_eq_left

@[simp] theorem cmdByte_append (op : BitVec 2) (b : Byte) : cmdByte (op ++ b) = b := BitVec.extractLsb'_append_eq_right

/-- R60, R61: the four operations, each over any byte. -/
theorem decodeCmd_append (op : BitVec 2) (b : Byte) :
    decodeCmd (op ++ b) = if op = 0 then .nop else if op = 1 then .push b else if op = 2 then .final else .init := by
  simp [decodeCmd]

/-- R61: the byte of `PUSH` goes through the pattern unchanged; the other three patterns are fixed words. -/
theorem decodeCmd_encodeCmd (c : Command) : decodeCmd (encodeCmd c) = c := by
  cases c with
  | nop => rfl
  | push b => exact decodeCmd_append 1 b
  | final => rfl
  | init => rfl

/-! ## The round pattern -/

theorem quartile_append (q : BitVec 2) (jl : BitVec 4) : quartile (q ++ jl) = q := BitVec.extractLsb'_append_eq_left

/-- R64: in format ROUND the phase bits must be 001, and then the quartile selects. -/
theorem decode_round_append (p : BitVec 3) (j : BitVec 6) :
    decode (.round (p ++ j)) = if p = 1 then .ok (roundInstr (quartile j)) else .error .notARound := by
  have phaseBits : (p ++ j).extractLsb' 6 3 = p := BitVec.extractLsb'_append_eq_left
  have indexBits : (p ++ j).extractLsb' 0 6 = j := BitVec.extractLsb'_append_eq_right
  simp only [decode, phaseBits, indexBits, selectStep_round]

/-- R64: the bits `J[3:0]` are no operand. -/
theorem decode_roundWord (q : BitVec 2) (jl : BitVec 4) : decode (.round (roundWord q jl)) = .ok (roundInstr q) := by
  have fields : roundWord q jl = 1#3 ++ (q ++ jl) := BitVec.append_assoc
  rw [fields, decode_round_append, quartile_append]
  rfl

/-! ## Decoding undoes encoding -/

theorem Instr.wf_of_command (c : Command) : c.instr.wf = true := by
  cases c <;> rfl

theorem Instr.wf_selectStep (ph : Phase) (j : BitVec 6) : (selectStep ph j).wf = true := by
  cases ph with
  | round => rcases roundInstr_cases (quartile j) with ⟨-, h⟩ | ⟨-, h⟩ | ⟨-, h⟩ | ⟨-, h⟩ <;> rw [selectStep_round, h] <;> rfl
  | idle => rfl
  | fold => rfl
  | pad2 => rfl
  | emit => rfl

/-- R63, R64: every pattern that decodes is a command word or selects the step of some phase. -/
theorem decode_cases {t : TableWord} {i : Instr} (h : decode t = .ok i) :
    (∃ w, t = .command w ∧ i = (decodeCmd w).instr) ∨ (∃ ph j, i = selectStep ph j) := by
  cases t with
  | command w => exact .inl ⟨w, rfl, (Except.ok.inj h).symm⟩
  | phase v =>
    simp only [decode] at h
    split at h <;> cases h
    all_goals exact .inr ⟨_, _, rfl⟩
  | round v =>
    simp only [decode] at h
    split at h <;> cases h
    exact .inr ⟨_, _, rfl⟩

/-- R71: whatever decodes is no action. -/
theorem Instr.wf_of_decode {t : TableWord} {i : Instr} (h : decode t = .ok i) : i.wf = true := by
  rcases decode_cases h with ⟨w, -, rfl⟩ | ⟨ph, j, rfl⟩
  · exact Instr.wf_of_command _
  · exact Instr.wf_selectStep ph j

theorem decode_encode {i : Instr} (h : i.wf = true) : ∃ t, encode i = some t ∧ decode t = .ok i := by
  cases i with
  | push b => exact ⟨_, rfl, by rw [decode, decodeCmd_encodeCmd]; rfl⟩
  | start fin => cases h
  | pad1 => cases h
  | nop => exact ⟨_, rfl, rfl⟩
  | final => exact ⟨_, rfl, rfl⟩
  | init => exact ⟨_, rfl, rfl⟩
  | idle => exact ⟨_, rfl, rfl⟩
  | rnd0 => exact ⟨_, rfl, rfl⟩
  | rnd1 => exact ⟨_, rfl, rfl⟩
  | rnd2 => exact ⟨_, rfl, rfl⟩
  | rnd3 => exact ⟨_, rfl, rfl⟩
  | fold => exact ⟨_, rfl, rfl⟩
  | pad2 => exact ⟨_, rfl, rfl⟩
  | emit => exact ⟨_, rfl, rfl⟩

/-- Settles O4: the patterns taken apart field by field give back what the encoder put together. -/
theorem decodeOfEncodeIsTheInstruction : Obligations.DecodeOfEncodeIsTheInstruction :=
  ⟨fun _ => decode_encode, fun _ _ => Instr.wf_of_decode, decode_roundWord, decodeCmd_encodeCmd,
   fun b => ⟨decodeCmd_append 0 b, decodeCmd_append 2 b, decodeCmd_append 3 b⟩⟩

/-- Settles O1, on the words as they stand. -/
theorem specWordsDecodeAsTheTableSays : Obligations.SpecWordsDecodeAsTheTableSays := by
  unfold Obligations.SpecWordsDecodeAsTheTableSays
  decide

/-! ## The opcode table -/

/-- The mnemonics of the rows that a pattern matches. -/
def TableWord.matching (t : TableWord) : List String := (opcodeRows.filter (·.matchesWord t)).map (·.mnemonic)

/-- The mnemonic of what a pattern decodes to, none where it is rejected. -/
def TableWord.decoded (t : TableWord) : List String := (decode t).toOption.toList.map (·.mnemonic)

/-- A row that sees the same bits under its mask matches alike. -/
theorem matching_congr {t t' : TableWord} (h : ∀ r ∈ opcodeRows, r.matchesWord t = r.matchesWord t') :
    t.matching = t'.matching := by
  rw [TableWord.matching, TableWord.matching, List.filter_congr h]

/-- R60: the command rows look at the operation only. -/
theorem matching_command (op : BitVec 2) (b : Byte) :
    (TableWord.command (op ++ b)).matching = (TableWord.command (op ++ 0#8)).matching := by
  have masks : ∀ r ∈ opcodeRows, r.format = .cmd → r.mask = 0x300 := by decide
  have masked : (op ++ b).toNat &&& 0x300 = (op ++ 0#8).toNat &&& 0x300 := by
    have low (b : Byte) : (op ++ b) &&& 0x300 = op ++ 0#8 := (and_opMask _).trans (by rw [cmdOp_append])
    exact congrArg BitVec.toNat ((low b).trans (low 0#8).symm)
  refine matching_congr fun r hr => ?_
  by_cases hcmd : r.format = .cmd
  · rw [Row.matchesWord, Row.matchesWord, masks r hr hcmd, masked]
  · simp only [Row.matchesWord, beq_false_of_ne hcmd, Bool.false_and]

/-- R64: the round rows look at the phase and the quartile only. -/
theorem matching_round (pq : BitVec 5) (jl : BitVec 4) :
    (TableWord.round (pq ++ jl)).matching = (TableWord.round (pq ++ 0#4)).matching := by
  have masks : ∀ r ∈ opcodeRows, r.format = .round → r.mask = 0x1f0 := by decide
  have masked : (pq ++ jl).toNat &&& 0x1f0 = (pq ++ 0#4).toNat &&& 0x1f0 := by
    have mask : (0x1f0 : BitVec 9) = BitVec.allOnes 5 ++ 0#4 := by decide
    have low (jl : BitVec 4) : (pq ++ jl) &&& 0x1f0 = pq ++ 0#4 := by
      rw [mask, BitVec.and_append, BitVec.and_allOnes, BitVec.and_zero]
    exact congrArg BitVec.toNat ((low jl).trans (low 0#4).symm)
  refine matching_congr fun r hr => ?_
  by_cases hround : r.format = .round
  · rw [Row.matchesWord, Row.matchesWord, masks r hr hround, masked]
  · simp only [Row.matchesWord, beq_false_of_ne hround, Bool.false_and]

/-- R60: the one row of each operation. -/
theorem matching_eq_decoded_command (w : BitVec 10) :
    (TableWord.command w).matching = (TableWord.command w).decoded := by
  have rows : ∀ op : BitVec 2, (TableWord.command (op ++ 0#8)).matching =
      [if op = 0 then "NOP" else if op = 1 then "PUSH" else if op = 2 then "FINAL" else "INIT"] := by decide
  rw [← cmdOp_append_cmdByte w, matching_command, rows]
  simp only [TableWord.decoded, decode, decodeCmd_append]
  split_ifs <;> rfl

/-- R64: the one row of each quartile in phase 001, and no row in another phase. -/
theorem matching_eq_decoded_round (p : BitVec 3) (j : BitVec 6) :
    (TableWord.round (p ++ j)).matching = (TableWord.round (p ++ j)).decoded := by
  have rows : ∀ (p : BitVec 3) (q : BitVec 2), (TableWord.round ((p ++ q) ++ 0#4)).matching =
      if p = 1 then [(roundInstr q).mnemonic] else [] := by decide
  have fields : p ++ j = (p ++ quartile j) ++ j.extractLsb' 0 4 := by
    have index : quartile j ++ j.extractLsb' 0 4 = j := BitVec.extractLsb'_append_extractLsb'
    calc p ++ j
      _ = p ++ (quartile j ++ j.extractLsb' 0 4) := by rw [index]
      _ = (p ++ quartile j) ++ j.extractLsb' 0 4 := BitVec.append_assoc.symm
  rw [TableWord.decoded, decode_round_append, fields, matching_round, rows]
  split_ifs <;> rfl

/-- R60, R63, R64: the decoder's answer is the row that matches. -/
theorem matching_eq_decoded (t : TableWord) : t.matching = t.decoded := by
  cases t with
  | command w => exact matching_eq_decoded_command w
  | phase v => revert v; decide
  | round v =>
    have fields : v.extractLsb' 6 3 ++ v.extractLsb' 0 6 = v := BitVec.extractLsb'_append_extractLsb'
    rw [← fields]
    exact matching_eq_decoded_round _ _

/-- Settles O3: on every pattern the matching rows are the decoder's answer. -/
theorem decoderAgreesWithTheOpcodeTable : Obligations.DecoderAgreesWithTheOpcodeTable := by
  intro t
  have rows := matching_eq_decoded t
  refine ⟨fun i hi => ?_, fun e he r hr => ?_⟩
  · rw [TableWord.decoded, hi] at rows
    exact rows
  · rw [TableWord.decoded, he] at rows
    have noRow : opcodeRows.filter (·.matchesWord t) = [] := List.map_eq_nil_iff.mp rows
    simpa using List.filter_eq_nil_iff.mp noRow r hr

/-! ## The step a state presents -/

/-- R63: outside the rounds the phase bits alone select. -/
theorem decode_phase_code {ph : Phase} (h : ph ≠ .round) (j : BitVec 6) :
    decode (.phase ph.code) = .ok (selectStep ph j) := by
  cases ph with
  | round => exact absurd rfl h
  | idle => rfl
  | fold => rfl
  | pad2 => rfl
  | emit => rfl

/-- R64: in the rounds the phase and the index select. -/
theorem decode_round_code (j : BitVec 6) : decode (.round (Phase.round.code ++ j)) = .ok (selectStep .round j) :=
  decode_round_append 1 j

/-- Settles O24: in the rounds by the round pattern, otherwise by the phase pattern. -/
theorem phaseBitsSelectTheStep : Obligations.PhaseBitsSelectTheStep := by
  refine fun s => ⟨fun hph => ?_, fun hph => decode_phase_code hph s.j⟩
  rw [State.select, hph]
  exact decode_round_code s.j

/-- R58: an idle engine to which a word is presented runs the command that word decodes to. -/
theorem exec_select_of_command {s : State} (hph : s.ph = .idle) (hvalid : s.pins.cmdValid = true) :
    exec s.select s = exec (decodeCmd s.pins.cmd).instr s := by
  rw [State.select, hph, ← accept_eq]
  exact if_pos hvalid

/-- R58, R63, R64: what a state presents decodes to the instruction its step runs. -/
theorem exec_select_of_presents {s : State} {t : TableWord} {i : Instr} (hpres : s.presents t) (hdec : decode t = .ok i) :
    exec s.select s = exec i s := by
  obtain ⟨inRounds, otherwise⟩ := phaseBitsSelectTheStep s
  cases t with
  | command w =>
    obtain ⟨hph, hvalid, rfl⟩ := hpres
    rw [exec_select_of_command hph hvalid, Except.ok.inj hdec]
  | phase v =>
    obtain ⟨rfl, hph, -⟩ := hpres
    rw [Except.ok.inj ((otherwise hph).symm.trans hdec)]
  | round v =>
    obtain ⟨hph, rfl⟩ := hpres
    rw [Except.ok.inj ((inRounds hph).symm.trans hdec)]

theorem advance_next (u : State) : advance (.next u) =
    .next { u with pins := u.script.headD ⟨false, false, 0⟩, script := u.script.tail } := by
  simp only [advance, State.nextPins]
  cases u.script <;> rfl

/-- Settles O25: the instruction selected is the one the presented pattern decodes to. -/
theorem stepRunsTheDecodedInstruction : Obligations.StepRunsTheDecodedInstruction := by
  refine ⟨fun s t i hrst hpres hdec => ?_, advance_next⟩
  rw [step, hrst, exec_select_of_presents hpres hdec]
  rfl

end Sys2Proof
end

section
/-! One step, case by case with a name for each case, and what the steps do to the phase, the flags, the counter and the outputs
(10_state.md sections 5 and 7, 43_digest_engine.md section 1). -/

namespace Sys2Proof.Machine

/-! ## The ten kinds of step -/

/-- What a step does to the registers, before the clock edge moves the pins: the cases of `step_inversion`, named. -/
inductive State.Edge (s : State) : State → Prop
  /-- R147 -/
  | reset (hrst : s.pins.rst = true) : Edge s s.resetEngine
  /-- R58, R108: no command, or `NOP` -/
  | stay (hrst : s.pins.rst = false) (hph : s.ph = .idle) (hacc : s.accepted = none ∨ s.accepted = some .nop) : Edge s s
  /-- R109 -/
  | init (hrst : s.pins.rst = false) (hph : s.ph = .idle) (hacc : s.accepted = some .init) :
      Edge s { s with h := iv, len := 0, cnt := 0, buf := zeroFill s.buf 0 64, dv := false }
  /-- R110, before the block is full -/
  | push (hrst : s.pins.rst = false) (hph : s.ph = .idle) (b : Byte) (hacc : s.accepted = some (.push b)) (hlen : s.len ≠ 63) :
      Edge s { s with buf := writeByte s.buf s.len b, dv := false, len := s.len + 1 }
  /-- R110, the 64th byte -/
  | pushLast (hrst : s.pins.rst = false) (hph : s.ph = .idle) (b : Byte) (hacc : s.accepted = some (.push b)) (hlen : s.len = 63) :
      Edge s { s with
        buf := writeByte s.buf s.len b, dv := false, len := 0, w := s.h, j := 0, fin := .data, ph := .round }
  /-- R111 -/
  | final (hrst : s.pins.rst = false) (hph : s.ph = .idle) (hacc : s.accepted = some .final) : Edge s s.clearValid.padFirst
  /-- R86 to R89 -/
  | round (hrst : s.pins.rst = false) (hph : s.ph = .round) (hacc : s.accepted = none) :
      Edge s { s with
        w := md5Round s.j s.w (msgWord s.buf), j := s.j + 1, ph := if s.j = 63 then .fold else .round }
  /-- R90 -/
  | fold (hrst : s.pins.rst = false) (hph : s.ph = .fold) (hacc : s.accepted = none) :
      Edge s { s with
        h := addQuad s.h s.w
        cnt := if s.fin = .data then add64 s.cnt 64 else s.cnt
        ph := match s.fin with | .data => .idle | .tailMore => .pad2 | .tailLast => .emit }
  /-- R103 -/
  | pad2 (hrst : s.pins.rst = false) (hph : s.ph = .pad2) (hacc : s.accepted = none) :
      Edge s { s with
        buf := memWrite8 (zeroFill s.buf 0 56) 56 (totalBits s.cnt s.len), w := s.h, j := 0, fin := .tailLast, ph := .round }
  /-- R112 -/
  | emit (hrst : s.pins.rst = false) (hph : s.ph = .emit) (hacc : s.accepted = none) :
      Edge s { s with
        h := iv, len := 0, cnt := 0, buf := zeroFill s.buf 0 64, dig := vec128 (ser s.h), dv := true, ph := .idle }

/-- Every step is one of the ten, and then the clock edge. -/
theorem edge_of_step {s t : State} (h : step s = .next t) : ∃ u, t = u.nextPins ∧ s.Edge u := by
  obtain ⟨u, ht, hu⟩ := step_inversion h
  refine ⟨u, ht, ?_⟩
  rcases hu with ⟨hr, rfl⟩ | ⟨hr, hp, ha, rfl⟩ | ⟨hr, hp, ha, rfl⟩ | ⟨hr, hp, hl, b, ha, rfl⟩ | ⟨hr, hp, hl, b, ha, rfl⟩ |
    ⟨hr, hp, ha, rfl⟩ | ⟨hr, hp, ha, rfl⟩ | ⟨hr, hp, ha, rfl⟩ | ⟨hr, hp, ha, rfl⟩ | ⟨hr, hp, ha, rfl⟩
  · exact .reset hr
  · exact .stay hr hp ha
  · exact .init hr hp ha
  · exact .push hr hp b ha hl
  · exact .pushLast hr hp b ha hl
  · exact .final hr hp ha
  · exact .round hr hp ha
  · exact .fold hr hp ha
  · exact .pad2 hr hp ha
  · exact .emit hr hp ha

/-- R134: under `rst` the step is the reset. -/
theorem State.Edge.eq_resetEngine {s u : State} (hu : s.Edge u) (hrst : s.pins.rst = true) : u = s.resetEngine := by
  cases hu with
  | reset => rfl
  | _ h => rw [hrst] at h; cases h

/-! ## The phase -/

/-- Settles O28: each kind of step is one arrow of the table. -/
theorem phaseTransitionsAreTheTable : Obligations.PhaseTransitionsAreTheTable := by
  intro s t hstep
  obtain ⟨u, rfl, hu⟩ := edge_of_step hstep
  rw [State.nextPins_ph, State.nextPins_fin]
  cases hu with
  | reset hrst => simp [hrst]
  | stay hrst hph hacc => rcases hacc with hacc | hacc <;> simp [hrst, hph, hacc]
  | init hrst hph hacc => simp [hrst, hph, hacc]
  | push hrst hph b hacc hlen => simpa [hrst, hph, hacc] using hlen
  | pushLast hrst hph b hacc hlen => simp [hrst, hph, hacc, hlen]
  | final hrst hph hacc => by_cases fits : s.len.toNat ≤ 55 <;> simp [hrst, hph, hacc, fits]
  | round hrst hph hacc =>
    by_cases last : s.j = 63
    · simp [hrst, hph, last]
    · simp only [hrst, hph, if_neg last]
      simp
  | fold hrst hph hacc => cases hfin : s.fin <;> simp [hrst, hph]
  | pad2 hrst hph hacc => simp [hrst, hph]
  | emit hrst hph hacc => simp [hrst, hph]

theorem Phase.ne_idle_cases {ph : Phase} (h : ph ≠ .idle) : ph = .round ∨ ph = .fold ∨ ph = .pad2 ∨ ph = .emit := by
  cases ph <;> simp_all

/-- R91: in each busy phase the step reads no pin but `rst`, and the clock edge forgets what was presented. -/
theorem step_with_pins {s : State} (hbusy : s.ph ≠ .idle) (hrst : s.pins.rst = false) {p : Pins} (hp : p.rst = false) :
    step { s with pins := p } = step s := by
  rcases Phase.ne_idle_cases hbusy with hph | hph | hph | hph
  · rw [step_of_round hrst hph, step_of_round (s := { s with pins := p }) hp hph]
    simp only [State.nextPins]
  · rw [step_of_fold hrst hph, step_of_fold (s := { s with pins := p }) hp hph]
    simp only [State.nextPins]
  · rw [step_of_pad2 hrst hph, step_of_pad2 (s := { s with pins := p }) hp hph]
    simp only [State.nextPins]
  · rw [step_of_emit hrst hph, step_of_emit (s := { s with pins := p }) hp hph]
    simp only [State.nextPins]

/-- R58: a busy engine accepts nothing. -/
theorem State.accepted_of_busy {s : State} (hbusy : s.ph ≠ .idle) : s.accepted = none := by
  simp [State.accepted, hbusy]

/-- Settles O29: a busy step reads no pin of the command port. -/
theorem busyEngineIgnoresTheCommandPort : Obligations.BusyEngineIgnoresTheCommandPort :=
  fun _ _ _ hbusy hrst => ⟨step_with_pins hbusy hrst rfl, State.accepted_of_busy hbusy⟩

/-! ## What changes when -/

/-- Settles O30: of the ten kinds of step two are possible here, and neither writes the buffer. -/
theorem bufferIsStableWhileCompressing : Obligations.BufferIsStableWhileCompressing := by
  intro s t hstep hr hcompressing
  obtain ⟨u, rfl, hu⟩ := edge_of_step hstep
  cases hu with
  | round => simp
  | fold _ hph => simp [hph]
  | reset hrst => simp [hr] at hrst
  | _ _ hph => simp [hph] at hcompressing

/-- R28: `SNAP` is the four words, whatever the state. -/
theorem State.snap_eq (s : State) : s.snap = s.h.d ++ s.h.c ++ s.h.b ++ s.h.a := vec128_ser s.h

theorem State.snap_of_iv {s : State} (h : s.h = iv) : s.snap = 0x1032547698badcfeefcdab8967452301 := by
  rw [State.snap, h, vec128_ser_iv]

/-- Settles O31: three kinds of step load `IV`, `FOLD` adds, and the others keep `H`. -/
theorem snapshotChangesOnlyAtFoldEmitInit : Obligations.SnapshotChangesOnlyAtFoldEmitInit := by
  intro s t hstep
  obtain ⟨u, rfl, hu⟩ := edge_of_step hstep
  refine ⟨State.snap_eq _, ?_⟩
  cases hu with
  | reset hrst => rw [if_pos (.inl hrst)]; exact State.snap_of_iv (by simp)
  | init hrst hph hacc => rw [if_pos (.inr (.inr hacc))]; exact State.snap_of_iv (by simp)
  | emit hrst hph => rw [if_pos (.inr (.inl hph))]; exact State.snap_of_iv (by simp)
  | stay hrst hph hacc => rcases hacc with hacc | hacc <;> simp [hrst, hph, hacc, State.snap]
  | push hrst hph b hacc => simp [hrst, hph, hacc, State.snap]
  | pushLast hrst hph b hacc => simp [hrst, hph, hacc, State.snap]
  | _ hrst hph hacc => simp [hrst, hph, hacc, State.snap]

/-- Settles O33: `EMIT` sets the flag, reset and three commands clear it. -/
theorem digestValidIsSetByEmitOnly : Obligations.DigestValidIsSetByEmitOnly := by
  intro s t hstep
  obtain ⟨u, rfl, hu⟩ := edge_of_step hstep
  rw [State.nextPins_dv]
  cases hu with
  | reset hrst => simp [hrst]
  | stay hrst hph hacc => rcases hacc with hacc | hacc <;> simp [hrst, hph, hacc]
  | push hrst hph b hacc => simp [hrst, hph, hacc]
  | pushLast hrst hph b hacc => simp [hrst, hph, hacc]
  | _ hrst hph hacc => simp [hrst, hph, hacc]

/-- Settles O34: the counter moves in `FOLD` of a data block, and three kinds of step clear it. -/
theorem counterMovesOnlyAtDataFolds : Obligations.CounterMovesOnlyAtDataFolds := by
  intro s t hstep
  obtain ⟨u, rfl, hu⟩ := edge_of_step hstep
  rw [State.nextPins_cnt]
  cases hu with
  | reset hrst => simp [hrst]
  | stay hrst hph hacc => rcases hacc with hacc | hacc <;> simp [hrst, hph, hacc]
  | push hrst hph b hacc => simp [hrst, hph, hacc]
  | pushLast hrst hph b hacc => simp [hrst, hph, hacc]
  | _ hrst hph hacc => simp [hrst, hph, hacc, add64]

theorem State.acc_of_empty {s : State} (h : s.len = 0) : s.acc = [] := by
  simp [State.acc, h]

/-- R34: `ctx0` with a zero buffer, seen through the clock edge. -/
theorem State.initial_nextPins {u : State} (hph : u.ph = .idle) (hh : u.h = iv) (hlen : u.len = 0) (hcnt : u.cnt = 0)
    (hbuf : u.buf = []) : u.nextPins.ph = .idle ∧ u.nextPins.fresh ∧ u.nextPins.acc = [] ∧ ∀ a, readByte u.nextPins.buf a = 0 := by
  refine ⟨?_, ⟨?_, ?_, ?_⟩, State.acc_of_empty ?_, ?_⟩
  all_goals simp [hph, hh, hlen, hcnt, hbuf]

/-- Settles O37: each of the three leaves `IV`, an empty accumulator, a zero counter and, in canonical form, the empty buffer. -/
theorem resetInitAndEmitLeaveTheInitialContext : Obligations.ResetInitAndEmitLeaveTheInitialContext := by
  intro s t hbuf hstep hkind
  obtain ⟨u, rfl, hu⟩ := edge_of_step hstep
  clear hstep
  have zeroed : zeroFill s.buf 0 64 = [] := zeroFill_all hbuf
  cases hu with
  | reset hrst => exact State.initial_nextPins rfl rfl rfl rfl rfl
  | init hrst hph hacc => exact State.initial_nextPins hph rfl rfl rfl (by simp only [zeroed])
  | emit hrst hph => exact State.initial_nextPins rfl rfl rfl rfl (by simp only [zeroed])
  | stay hrst hph hacc => rcases hacc with hacc | hacc <;> simp [hrst, hph, hacc] at hkind
  | push hrst hph b hacc => simp [hrst, hph, hacc] at hkind
  | pushLast hrst hph b hacc => simp [hrst, hph, hacc] at hkind
  | _ hrst hph hacc => simp [hrst, hph, hacc] at hkind

end Sys2Proof.Machine
end

section
/-! The invariants of 10_state.md R33: at reset, and kept by every kind of step. -/

namespace Sys2Proof.Machine

/-! ## The buffer's canonical form -/

theorem State.Edge.buf_wf {s u : State} (hu : s.Edge u) (hbuf : Memory.wf s.buf) : Memory.wf u.buf := by
  cases hu with
  | reset => exact Memory.wf_nil
  | stay => exact hbuf
  | init => dsimp only; exact zeroFill_wf _ _ _ hbuf
  | push => exact writeByte_wf _ _ _ hbuf
  | pushLast => exact writeByte_wf _ _ _ hbuf
  | final => exact State.padFirst_wf s.clearValid hbuf
  | round => exact hbuf
  | fold => exact hbuf
  | pad2 => dsimp only; exact memWrite8_wf _ _ _ (zeroFill_wf _ _ _ hbuf)
  | emit => dsimp only; exact zeroFill_wf _ _ _ hbuf

/-! ## The invariants -/

/-- No invariant speaks of the pins. -/
theorem State.Inv.nextPins {s : State} (h : s.Inv) : s.nextPins.Inv where
  bufWf := by simpa using h.bufWf
  indexZero := by simpa using h.indexZero
  cntBlocks := by simpa using h.cntBlocks
  dataEmpty := by simpa using h.dataEmpty
  moreLength := by simpa using h.moreLength
  pad2More := by simpa using h.pad2More
  emitLast := by simpa using h.emitLast
  validIdle := by simpa using h.validIdle

/-- R33 item 7, for a busy state. -/
theorem State.Inv.dv_of_busy {s : State} (h : s.Inv) (hbusy : s.ph ≠ .idle) : s.dv = false := by
  by_contra hdv
  exact hbusy (h.validIdle (by simpa using hdv))

/-- What is left of the invariants when the engine is idle. -/
theorem State.Inv.of_idle {s : State} (hph : s.ph = .idle) (hbuf : Memory.wf s.buf) (hj : s.j = 0)
    (hcnt : s.cnt.extractLsb' 0 6 = 0) : s.Inv where
  bufWf := hbuf
  indexZero := fun _ => hj
  cntBlocks := hcnt
  dataEmpty := fun h => absurd hph h
  moreLength := fun h => absurd hph h
  pad2More := fun h => by rw [hph] at h; cases h
  emitLast := fun h => by rw [hph] at h; cases h
  validIdle := fun _ => hph

/-- What is left of the invariants when a block is being compressed. -/
theorem State.Inv.of_round {s : State} (hph : s.ph = .round) (hbuf : Memory.wf s.buf) (hcnt : s.cnt.extractLsb' 0 6 = 0)
    (hdata : s.fin = .data → s.len = 0) (hmore : s.fin = .tailMore → 56 ≤ s.len.toNat) (hdv : s.dv = false) : s.Inv where
  bufWf := hbuf
  indexZero := fun h => absurd hph h
  cntBlocks := hcnt
  dataEmpty := fun _ => hdata
  moreLength := fun _ => hmore
  pad2More := fun h => by rw [hph] at h; cases h
  emitLast := fun h => by rw [hph] at h; cases h
  validIdle := fun h => by rw [hdv] at h; cases h

/-- R33 item 4 survives the count of a data block. -/
theorem extractLsb'_add64_64 {cnt : BitVec 64} (h : cnt.extractLsb' 0 6 = 0) : (add64 cnt 64).extractLsb' 0 6 = 0 := by
  have low (v : BitVec 64) : v.extractLsb' 0 6 = 0 ↔ v.toNat % 64 = 0 := by
    rw [← BitVec.toNat_inj, BitVec.extractLsb'_toNat]
    rfl
  rw [low] at h ⊢
  have block : (64 : BitVec 64).toNat = 64 := rfl
  rw [toNat_add64, block]
  omega

/-- The index wraps to 0 at the last round, so that it is 0 when the rounds are over. -/
theorem State.Inv.afterRound {s : State} (h : s.Inv) (hph : s.ph = .round) (w : Quad) :
    State.Inv { s with w := w, j := s.j + 1, ph := if s.j = 63 then .fold else .round } := by
  have hbusy : s.ph ≠ .idle := by simp [hph]
  by_cases last : s.j = 63
  · exact {
      bufWf := h.bufWf
      indexZero := fun _ => by simp only [last]; decide
      cntBlocks := h.cntBlocks
      dataEmpty := fun _ => h.dataEmpty hbusy
      moreLength := fun _ => h.moreLength hbusy
      pad2More := fun e => by simp only [if_pos last] at e; cases e
      emitLast := fun e => by simp only [if_pos last] at e; cases e
      validIdle := fun e => by cases (h.dv_of_busy hbusy).symm.trans e }
  · exact .of_round (if_neg last) h.bufWf h.cntBlocks (h.dataEmpty hbusy) (h.moreLength hbusy) (h.dv_of_busy hbusy)

/-- R90: each value of `FIN` leads to the phase that the invariants tie to it. -/
theorem State.Inv.afterFold {s : State} (h : s.Inv) (hph : s.ph = .fold) (hsum : Quad) :
    State.Inv { s with
      h := hsum, cnt := if s.fin = .data then add64 s.cnt 64 else s.cnt
      ph := match s.fin with | .data => .idle | .tailMore => .pad2 | .tailLast => .emit } := by
  have hbusy : s.ph ≠ .idle := by simp [hph]
  have hj : s.j = 0 := h.indexZero (by simp [hph])
  have hdv := h.dv_of_busy hbusy
  cases hfin : s.fin with
  | data => exact .of_idle rfl h.bufWf hj (extractLsb'_add64_64 h.cntBlocks)
  | tailMore =>
    exact {
      bufWf := h.bufWf
      indexZero := fun _ => hj
      cntBlocks := h.cntBlocks
      dataEmpty := fun _ e => by cases e
      moreLength := fun _ _ => h.moreLength hbusy hfin
      pad2More := fun _ => rfl
      emitLast := fun e => by cases e
      validIdle := fun e => by cases hdv.symm.trans e }
  | tailLast =>
    exact {
      bufWf := h.bufWf
      indexZero := fun _ => hj
      cntBlocks := h.cntBlocks
      dataEmpty := fun _ e => by cases e
      moreLength := fun _ e => by cases e
      pad2More := fun e => by cases e
      emitLast := fun _ => rfl
      validIdle := fun e => by cases hdv.symm.trans e }

/-- R33: whatever kind of step it is, the invariants go with it. -/
theorem State.Edge.inv {s u : State} (hu : s.Edge u) (h : s.Inv) : u.Inv := by
  have hbuf := hu.buf_wf h.bufWf
  have zeroCnt : (0 : BitVec 64).extractLsb' 0 6 = 0 := by decide
  have idleIndex (hph : s.ph = .idle) : s.j = 0 := h.indexZero (by simp [hph])
  cases hu with
  | reset => exact .of_idle rfl hbuf rfl zeroCnt
  | stay => exact h
  | init hrst hph => exact .of_idle hph hbuf (idleIndex hph) zeroCnt
  | push hrst hph => exact .of_idle hph hbuf (idleIndex hph) h.cntBlocks
  | pushLast => exact .of_round rfl hbuf h.cntBlocks (fun _ => rfl) (fun e => by cases e) rfl
  | final hrst hph =>
    refine .of_round (State.padFirst_ph _) hbuf (by simpa using h.cntBlocks) ?_ ?_ (by simp)
    · rw [State.padFirst_fin]
      split <;> simp
    · rw [State.padFirst_fin]
      split
      · simp
      · simp only [State.padFirst_len]; omega
  | round hrst hph => exact h.afterRound hph _
  | fold hrst hph => exact h.afterFold hph _
  | pad2 hrst hph =>
    have hdv := h.dv_of_busy (by simp [hph])
    exact .of_round rfl hbuf h.cntBlocks (fun e => by cases e) (fun e => by cases e) hdv
  | emit hrst hph => exact .of_idle rfl hbuf (h.indexZero (by simp [hph])) zeroCnt

theorem State.reset_inv : State.reset.Inv := .of_idle rfl Memory.wf_nil rfl (by decide)

/-- Settles O36: the invariants hold at reset, every kind of step keeps them, and the compression does not write the buffer. -/
theorem everyStepKeepsTheInvariants : Obligations.EveryStepKeepsTheInvariants := by
  refine ⟨State.reset_inv, fun s t h hstep => ⟨?_, fun hrst hcompressing => ?_⟩⟩
  · obtain ⟨u, rfl, hu⟩ := edge_of_step hstep
    exact (hu.inv h).nextPins
  · obtain ⟨hbuf, -⟩ := bufferIsStableWhileCompressing s t hstep hrst hcompressing
    exact hbuf

/-- Settles O35: the values are the ones written in the reset state. -/
theorem resetStateMeetsTheInvariants : Obligations.ResetStateMeetsTheInvariants :=
  ⟨State.reset_inv, rfl, rfl, rfl, rfl, rfl, rfl, rfl, rfl, rfl, readByte_nil⟩

end Sys2Proof.Machine
end

section
/-! How long the engine is busy (70_reset_and_hazards.md R159, in this reference of one round per step): a count that falls by one
at every busy step and is 0 exactly when the engine is idle. -/

namespace Sys2Proof.Machine

/-! ## Steps of a host that does not reset -/

theorem State.Edge.pins {s u : State} (hu : s.Edge u) : u.pins = s.pins := by
  cases hu <;> simp

theorem State.Edge.script {s u : State} (hu : s.Edge u) : u.script = s.script := by
  cases hu <;> simp

theorem State.unreset_step {n : Nat} {s t : State} (hr : s.unreset (n + 1)) (hstep : step s = .next t) : t.unreset n := by
  obtain ⟨u, rfl, hu⟩ := edge_of_step hstep
  exact State.unreset_next (State.unreset_congr hr hu.pins hu.script)

theorem State.accepted_of_offered {c : Command} {s : State} (h : s.offered c) : s.accepted = some c := by
  obtain ⟨hph, hrst, hvalid, rfl⟩ := h
  simp [State.accepted, hph, hrst, hvalid]

theorem State.accepted_ph {c : Command} {s : State} (h : s.accepted = some c) : s.ph = .idle := by
  by_contra hbusy
  rw [State.accepted_of_busy hbusy] at h
  cases h

theorem State.accepted_rst {c : Command} {s : State} (h : s.accepted = some c) : s.pins.rst = false := by
  by_contra hrst
  simp [State.accepted, hrst] at h

/-! ## The count -/

/-- R107: the steps that follow `FOLD`, by the reason for the compression. -/
def stepsAfterFold : FinCode → Nat
  | .data => 0
  | .tailMore => 67
  | .tailLast => 1

/-- R107: the steps a state takes to the next idle one. -/
def State.remaining (s : State) : Nat :=
  match s.ph with
  | .idle => 0
  | .round => 64 - s.j.toNat + (1 + stepsAfterFold s.fin)
  | .fold => 1 + stepsAfterFold s.fin
  | .pad2 => 67
  | .emit => 1

@[simp] theorem State.remaining_nextPins (s : State) : s.nextPins.remaining = s.remaining := by
  simp [State.remaining]

theorem State.remaining_of_idle {s : State} (h : s.ph = .idle) : s.remaining = 0 := by
  simp [State.remaining, h]

theorem State.remaining_eq_zero_iff (s : State) : s.remaining = 0 ↔ s.ph = .idle := by
  cases hph : s.ph <;> simp [State.remaining, hph]

theorem State.remaining_le (s : State) : s.remaining ≤ 132 := by
  have tail : stepsAfterFold s.fin ≤ 67 := by cases s.fin <;> decide
  cases hph : s.ph <;> simp only [State.remaining, hph] <;> omega

theorem State.ready_iff (s : State) : s.ready = true ↔ s.remaining = 0 := by
  simp [State.ready, State.remaining_eq_zero_iff]

theorem State.not_ready_iff (s : State) : s.ready = false ↔ 0 < s.remaining := by
  rw [← Bool.not_eq_true, State.ready_iff, Nat.pos_iff_ne_zero]

/-- One round fewer, and at the last round the add-back is what remains. -/
theorem State.remaining_afterRound {s : State} (hph : s.ph = .round) (w : Quad) :
    State.remaining { s with w := w, j := s.j + 1, ph := if s.j = 63 then .fold else .round } + 1 = s.remaining := by
  by_cases last : s.j = 63
  · have index : s.j.toNat = 63 := by rw [last]; rfl
    simp only [State.remaining, hph, if_pos last, index]
    omega
  · have index : s.j.toNat ≠ 63 := fun e => last (BitVec.eq_of_toNat_eq e)
    have next : (s.j + 1).toNat = s.j.toNat + 1 := by rw [roundIndex_succ, BitVec.toNat_ofNat]; omega
    simp only [State.remaining, hph, if_neg last, next]
    omega

/-- Every busy step takes one off the count. -/
theorem State.Edge.remaining {s u : State} (hu : s.Edge u) (hrst : s.pins.rst = false) (hbusy : s.ph ≠ .idle) :
    u.remaining + 1 = s.remaining := by
  cases hu with
  | reset h => rw [hrst] at h; cases h
  | round _ hph => exact State.remaining_afterRound hph _
  | fold _ hph => cases hfin : s.fin <;> simp [State.remaining, hph, hfin, stepsAfterFold]
  | pad2 _ hph => simp [State.remaining, hph, stepsAfterFold]
  | emit _ hph => simp [State.remaining, hph]
  | _ _ hph => exact absurd hph hbusy

/-- R159: what an accepted command leaves to do. -/
theorem State.Edge.remaining_of_accepted {c : Command} {s u : State} (hu : s.Edge u) (hacc : s.accepted = some c) :
    u.remaining + 1 = stepCount s.len c := by
  have hph := State.accepted_ph hacc
  cases hu with
  | reset h => rw [State.accepted_rst hacc] at h; cases h
  | stay _ _ h =>
    obtain rfl : c = .nop := by simpa [hacc] using h
    rw [State.remaining_of_idle hph]
    rfl
  | init _ _ h =>
    obtain rfl : c = .init := by simpa [hacc] using h
    rw [State.remaining_of_idle (by exact hph)]
    rfl
  | push _ _ b h hlen =>
    obtain rfl : c = .push b := by simpa [hacc] using h
    rw [State.remaining_of_idle (by exact hph), stepCount, if_neg hlen]
  | pushLast _ _ b h hlen =>
    obtain rfl : c = .push b := by simpa [hacc] using h
    rw [stepCount, if_pos hlen]
    rfl
  | final _ _ h =>
    obtain rfl : c = .final := by simpa [hacc] using h
    by_cases fits : s.len.toNat ≤ 55 <;> simp [State.remaining, stepCount, fits, stepsAfterFold]
  | round _ h => rw [hph] at h; cases h
  | fold _ h => rw [hph] at h; cases h
  | pad2 _ h => rw [hph] at h; cases h
  | emit _ h => rw [hph] at h; cases h

/-! ## Runs -/

theorem step_remaining {s t : State} (hstep : step s = .next t) (hrst : s.pins.rst = false) (hbusy : s.ph ≠ .idle) :
    t.remaining + 1 = s.remaining := by
  obtain ⟨u, rfl, hu⟩ := edge_of_step hstep
  rw [State.remaining_nextPins, hu.remaining hrst hbusy]

theorem step_remaining_of_accepted {c : Command} {s t : State} (hstep : step s = .next t) (hacc : s.accepted = some c) :
    t.remaining + 1 = stepCount s.len c := by
  obtain ⟨u, rfl, hu⟩ := edge_of_step hstep
  rw [State.remaining_nextPins, hu.remaining_of_accepted hacc]

/-- A run within the count ends with the rest of it. -/
theorem run_remaining {n : Nat} {s : State} (hr : s.unreset n) (hn : n ≤ s.remaining) :
    ∃ t, run n s = .next t ∧ t.remaining + n = s.remaining := by
  induction n generalizing s with
  | zero => exact ⟨s, rfl, rfl⟩
  | succ n ih =>
    obtain ⟨t, hstep⟩ := everyStepAnswersANextState s
    have hbusy : s.ph ≠ .idle := fun h => by rw [State.remaining_of_idle h] at hn; omega
    have hleft := step_remaining hstep (State.unreset_head hr) hbusy
    obtain ⟨v, hrun, hv⟩ := ih (State.unreset_step hr hstep) (by omega)
    exact ⟨v, (run_succ n s t hstep).trans hrun, by omega⟩

/-- Settles O42: the count is at most 132, and a run of that length ends at 0. -/
theorem busyEngineBecomesReady : Obligations.BusyEngineBecomesReady := by
  intro s _ hr
  obtain ⟨t, hrun, ht⟩ := run_remaining (State.unreset_mono hr s.remaining_le) le_rfl
  exact ⟨s.remaining, t, s.remaining_le, hrun, t.ready_iff.mpr (by omega)⟩

theorem stepCount_mem (len : BitVec 6) (c : Command) : stepCount len c ∈ [1, 66, 67, 133] := by
  cases c with
  | push b => simp only [stepCount]; split <;> decide
  | final => simp only [stepCount]; split <;> decide
  | nop => exact List.mem_cons_self
  | init => exact List.mem_cons_self

theorem stepCount_pos (len : BitVec 6) (c : Command) : 0 < stepCount len c :=
  (by decide : ∀ n ∈ [1, 66, 67, 133], 0 < n) _ (stepCount_mem len c)

theorem stepCount_le (len : BitVec 6) (c : Command) : stepCount len c ≤ 133 :=
  (by decide : ∀ n ∈ [1, 66, 67, 133], n ≤ 133) _ (stepCount_mem len c)

/-- R159: from the state that accepts a command, what is left to do after `k` steps. -/
theorem run_of_accepted {c : Command} {s : State} (hacc : s.accepted = some c) {k : Nat} (hk : 0 < k)
    (hle : k ≤ stepCount s.len c) (hr : s.unreset k) :
    ∃ t, run k s = .next t ∧ t.remaining + k = stepCount s.len c := by
  obtain ⟨n, rfl⟩ : ∃ n, k = n + 1 := ⟨k - 1, by omega⟩
  obtain ⟨t, hstep⟩ := everyStepAnswersANextState s
  have hleft := step_remaining_of_accepted hstep hacc
  obtain ⟨v, hrun, hv⟩ := run_remaining (State.unreset_step hr hstep) (by omega)
  exact ⟨v, (run_succ n s t hstep).trans hrun, by omega⟩

/-- Settles O46: the count that acceptance leaves is the table's, less the accepting step. -/
theorem commandsTakeTheTabledStepCounts : Obligations.CommandsTakeTheTabledStepCounts := by
  intro s c hoffer hr
  have hacc := State.accepted_of_offered hoffer
  have within {k : Nat} (hk : k ≤ stepCount s.len c) := State.unreset_mono hr (hk.trans (stepCount_le s.len c))
  refine ⟨?_, fun k hpos hk => ?_⟩
  · obtain ⟨t, hrun, ht⟩ := run_of_accepted hacc (stepCount_pos s.len c) le_rfl (within le_rfl)
    exact ⟨t, hrun, t.ready_iff.mpr (by omega)⟩
  · obtain ⟨t, hrun, ht⟩ := run_of_accepted hacc hpos hk.le (within hk.le)
    exact ⟨t, hrun, t.not_ready_iff.mpr (by omega)⟩

/-- Settles O41: the block's 65 steps, read off field by field. -/
theorem roundsAndFoldComputeCompress : Obligations.RoundsAndFoldComputeCompress := by
  intro s hph hj hw hr
  refine ⟨_, run_block hph hj hw hr, rfl, rfl, rfl, rfl, rfl, rfl, rfl, rfl, ?_⟩
  cases s.fin <;> rfl

end Sys2Proof.Machine
end

section
/-! The serialization as a 128-bit vector, byte by byte (00_scope.md R15, 30_encoding.md R70), and the message indices
(41_block_compressor.md R83). -/

namespace Sys2Proof.Machine

/-! ## Bytes of a vector -/

/-- R15: the weighted sum that `vec128` takes over a byte sequence. -/
def weighted (s : List Byte) : Nat := s.foldr (fun b n => b.toNat + 256 * n) 0

@[simp] theorem weighted_nil : weighted [] = 0 := rfl

@[simp] theorem weighted_cons (b : Byte) (s : List Byte) : weighted (b :: s) = b.toNat + 256 * weighted s := rfl

theorem weighted_lt (s : List Byte) : weighted s < 256 ^ s.length := by
  induction s with
  | nil => decide
  | cons b s ih =>
    have hb := b.isLt
    rw [weighted_cons, List.length_cons, Nat.pow_succ]
    omega

/-- Digit `k` of the sum in base 256 is byte `k`. -/
theorem weighted_digit (s : List Byte) (k : Nat) : weighted s / 256 ^ k % 256 = (s.getD k 0).toNat := by
  induction s generalizing k with
  | nil => simp
  | cons b s ih =>
    have hb := b.isLt
    cases k with
    | zero => simpa using hb
    | succ k =>
      have shifted : (b.toNat + 256 * weighted s) / 256 = weighted s := by omega
      rw [weighted_cons, Nat.pow_succ', ← Nat.div_div_eq_div_mul, shifted, ih, List.getD_cons_succ]

/-- R15: bits `[8k+7:8k]` of `vec128(s)` are byte `k` of a sequence that fits. -/
theorem extractLsb'_vec128 {s : List Byte} (hs : s.length ≤ 16) (k : Nat) :
    (vec128 s).extractLsb' (8 * k) 8 = s.getD k 0 := by
  have fits : weighted s < 2 ^ 128 := calc
    weighted s < 256 ^ s.length := weighted_lt s
    _ ≤ 256 ^ 16 := Nat.pow_le_pow_right (by decide) hs
    _ = 2 ^ 128 := by decide
  have value : (vec128 s).toNat = weighted s := Nat.mod_eq_of_lt fits
  apply BitVec.eq_of_toNat_eq
  rw [BitVec.extractLsb'_toNat, value, Nat.shiftRight_eq_div_pow, Nat.pow_mul]
  exact weighted_digit s k

theorem ser_length (q : Quad) : (ser q).length = 16 := rfl

/-- Settles O6: the four words in order, and the bytes as the digits of the vector. -/
theorem serializationPutsTheFirstWordLowest : Obligations.SerializationPutsTheFirstWordLowest :=
  fun q => ⟨ser_length q, vec128_ser q, fun k _ => extractLsb'_vec128 (ser_length q).le k⟩

/-! ## The message index -/

theorem g0_append (k : BitVec 4) : g0 (0#2 ++ k) = k := by revert k; decide

theorem g1_append (k : BitVec 4) : g1 (1#2 ++ k) = 5 * k + 1 := by revert k; decide

theorem g2_append (k : BitVec 4) : g2 (2#2 ++ k) = 3 * k + 5 := by revert k; decide

theorem g3_append (k : BitVec 4) : g3 (3#2 ++ k) = 7 * k := by revert k; decide

/-- Settles O9: modulo 16 the inverses of 5, 3 and 7 are 13, 11 and 7, which gives the one round of each word. -/
theorem messageIndexIsAPermutationPerQuartile : Obligations.MessageIndexIsAPermutationPerQuartile := by
  have inverse1 : ∀ g k : BitVec 4, 5 * k + 1 = g ↔ k = 13 * (g - 1) := by decide
  have inverse2 : ∀ g k : BitVec 4, 3 * k + 5 = g ↔ k = 11 * (g - 5) := by decide
  have inverse3 : ∀ g k : BitVec 4, 7 * k = g ↔ k = 7 * g := by decide
  refine ⟨fun j => ⟨fun hj => ?_, ?_, ?_, ?_⟩, fun g => ⟨g, fun k => ?_⟩, fun g => ⟨13 * (g - 1), fun k => ?_⟩,
    fun g => ⟨11 * (g - 5), fun k => ?_⟩, fun g => ⟨7 * g, fun k => ?_⟩⟩
  · rw [g0, BitVec.toNat_ofNat, Nat.mod_eq_of_lt hj]
  · rw [g1, BitVec.toNat_ofNat, Nat.mod_mod]
  · rw [g2, BitVec.toNat_ofNat, Nat.mod_mod]
  · rw [g3, BitVec.toNat_ofNat, Nat.mod_mod]
  · rw [g0_append]
  · rw [g1_append, inverse1]
  · rw [g2_append, inverse2]
  · rw [g3_append, inverse3]

end Sys2Proof.Machine
end

section
/-! The commands and actions that write the buffer, byte by byte, and the two tail blocks as the blocks of the padded sequence
(20_memory.md R44, R56; 42_padding_builder.md R102, R103, R105; 43_digest_engine.md R110, R111). -/

namespace Sys2Proof.Machine

/-! ## The length field -/

/-- Two words with the same four bytes are one word. -/
theorem word_ext_bytes {x y : Word} (h : ∀ i < 4, x.extractLsb' (8 * i) 8 = y.extractLsb' (8 * i) 8) : x = y := by
  have h0 := congrArg BitVec.toNat (h 0 (by decide))
  have h1 := congrArg BitVec.toNat (h 1 (by decide))
  have h2 := congrArg BitVec.toNat (h 2 (by decide))
  have h3 := congrArg BitVec.toNat (h 3 (by decide))
  have hx := x.isLt
  have hy := y.isLt
  apply BitVec.eq_of_toNat_eq
  simp only [BitVec.extractLsb'_toNat, Nat.shiftRight_eq_div_pow] at h0 h1 h2 h3
  omega

/-- R44: byte `i` of message word `g` after the length field is written. -/
theorem extractLsb'_msgWord_memWrite8 {m : Memory} (hm : Memory.wf m) (v : BitVec 64) (g : BitVec 4) {i : Nat} (hi : i < 4) :
    (msgWord (memWrite8 m 56 v) g).extractLsb' (8 * i) 8 =
      if 56 ≤ 4 * g.toNat + i then v.extractLsb' (8 * (4 * g.toNat + i - 56)) 8
      else (msgWord m g).extractLsb' (8 * i) 8 := by
  have offset : (BitVec.ofNat 6 (4 * g.toNat + i)).toNat = 4 * g.toNat + i := by
    rw [BitVec.toNat_ofNat]
    omega
  rw [extractLsb'_msgWord _ _ hi, extractLsb'_msgWord _ _ hi, readByte_memWrite8 _ _ _ hm, offset]

/-- A byte of a word of `v` is a byte of `v`. -/
theorem extractLsb'_half (v : BitVec 64) (k : Nat) {i : Nat} (hi : i < 4) :
    (v.extractLsb' (32 * k) 32).extractLsb' (8 * i) 8 = v.extractLsb' (32 * k + 8 * i) 8 := by
  ext j hj
  have inside : 8 * i + j < 32 := by omega
  simp [inside, Nat.add_assoc]

/-- R42, R44: the two words of the length field, low half first. -/
theorem msgWord_lengthField {m : Memory} (hm : Memory.wf m) (v : BitVec 64) {k : Nat} (hk : k < 2) :
    msgWord (memWrite8 m 56 v) (BitVec.ofNat 4 (14 + k)) = v.extractLsb' (32 * k) 32 := by
  have index : (BitVec.ofNat 4 (14 + k)).toNat = 14 + k := by rw [BitVec.toNat_ofNat]; omega
  refine word_ext_bytes fun i hi => ?_
  have place : 8 * (4 * (14 + k) + i - 56) = 32 * k + 8 * i := by omega
  rw [extractLsb'_msgWord_memWrite8 hm v _ hi, index, if_pos (by omega), place, extractLsb'_half v k hi]

/-- Settles O12: the bytes from 56 on are the field's, the others are read as before. -/
theorem lengthFieldReadsBackAsTwoWords : Obligations.LengthFieldReadsBackAsTwoWords := by
  intro m v hm
  refine ⟨memWrite8_wf m 56 v hm, msgWord_lengthField hm v (k := 0) (by decide), msgWord_lengthField hm v (k := 1) (by decide),
    fun g hg => word_ext_bytes fun i hi => ?_⟩
  rw [extractLsb'_msgWord_memWrite8 hm v g hi, if_neg (by omega)]

/-! ## The commands and the actions -/

/-- Settles O15: one byte write, and the two ways on. -/
theorem pushWritesOneByteAtLen : Obligations.PushWritesOneByteAtLen := by
  intro b s hbuf
  refine ⟨writeByte s.buf s.len b, ?_, fun a => readByte_writeByte s.buf s.len a b hbuf⟩
  exact (execPush_eq b s).trans (by split <;> rfl)

/-- Settles O16: the record of `PAD1`, and the bytes of its buffer. -/
theorem padOneBuildsTheFirstTailBlock : Obligations.PadOneBuildsTheFirstTailBlock := by
  intro s hbuf
  refine ⟨s.padFirst.buf, congrArg Host.Outcome.next (State.padFirst_eq s), fun a => ?_⟩
  rw [readByte_padFirst hbuf, totalBits_eq_ofNat]

/-- Settles O17: `PAD1` on the state whose `DV` is cleared. -/
theorem finalClearsValidAndPads : Obligations.FinalClearsValidAndPads := by
  intro s hbuf
  obtain ⟨m, hexec, hread⟩ := padOneBuildsTheFirstTailBlock s.clearValid hbuf
  exact ⟨m, hexec, hread⟩

/-- R103: the second tail block, byte by byte. -/
theorem readByte_secondTail {m : Memory} (hm : Memory.wf m) (tb : BitVec 64) (a : Offset) :
    readByte (memWrite8 (zeroFill m 0 56) 56 tb) a = if 56 ≤ a.toNat then tb.extractLsb' (8 * (a.toNat - 56)) 8 else 0x00 := by
  rw [readByte_memWrite8 _ _ _ (zeroFill_wf _ _ _ hm), readByte_zeroFill _ _ _ _ hm (by decide)]
  by_cases field : 56 ≤ a.toNat
  · rw [if_pos field, if_pos field]
  · rw [if_neg field, if_neg field, if_pos (by omega)]

/-- Settles O18: the record of `PAD2`, and the bytes of its buffer. -/
theorem padTwoBuildsTheSecondTailBlock : Obligations.PadTwoBuildsTheSecondTailBlock := by
  intro s hbuf
  refine ⟨_, execPad2_eq s, fun a => ?_⟩
  rw [readByte_secondTail hbuf, totalBits_eq_ofNat]

/-- Settles O19, by the record of `START`. -/
theorem startLoadsTheWorkingCopies : Obligations.StartLoadsTheWorkingCopies := fun _ _ => rfl

/-- Settles O20: the idle step with and without a word on the port. -/
theorem idleAcceptsThePresentedCommand : Obligations.IdleAcceptsThePresentedCommand := fun s =>
  ⟨exec_idle_of_quiet, fun hvalid => (if_pos hvalid).trans (accept_eq s.pins.cmd s), exec_next .idle s⟩

/-! ## The tail blocks -/

theorem getElem?_bufBytes (m : Memory) {i : Nat} (hi : i < 64) : (bufBytes m)[i]? = some (readByte m (BitVec.ofNat 6 i)) := by
  simp [bufBytes, hi]

theorem State.getElem?_acc (s : State) {i : Nat} (hi : i < s.len.toNat) :
    s.acc[i]? = some (readByte s.buf (BitVec.ofNat 6 i)) := by
  simp [State.acc, hi]

/-- A buffer is a 64-byte sequence when it reads as that sequence's bytes. -/
theorem bufBytes_eq {m : Memory} {x : List Byte} (hx : x.length ≤ 64)
    (h : ∀ i < 64, x[i]? = some (readByte m (BitVec.ofNat 6 i))) : bufBytes m = x := by
  refine List.ext_getElem? fun i => ?_
  rcases lt_or_ge i 64 with inside | past
  · rw [getElem?_bufBytes m inside, h i inside]
  · rw [List.getElem?_eq_none (by rw [bufBytes_length]; exact past), List.getElem?_eq_none (by omega)]

/-- R98, R101: the layout of the padded sequence of an accumulator. -/
theorem State.pad_acc_layout (s : State) (tb : BitVec 64) :
    let len := if s.len.toNat ≤ 55 then 64 else 128
    (pad s.acc tb).length = len ∧ ∀ i < len, (pad s.acc tb)[i]? =
      if i < s.len.toNat then some (readByte s.buf (BitVec.ofNat 6 i))
      else if i = s.len.toNat then some 0x80
      else if i < len - 8 then some 0x00
      else some (tb.extractLsb' (8 * (i - (len - 8))) 8) := by
  obtain ⟨-, layout⟩ := paddingFillsOneOrTwoBlocks
  obtain ⟨total, bytes⟩ := layout s.acc tb (by rw [State.acc_length]; omega)
  rw [State.acc_length] at total bytes
  refine ⟨total, fun i hi => (bytes i hi).trans ?_⟩
  by_cases inTail : i < s.len.toNat
  · rw [if_pos inTail, if_pos inTail, State.getElem?_acc s inTail]
  · rw [if_neg inTail, if_neg inTail]

/-- R102, R105: the first tail block. -/
theorem bufBytes_padFirst {s : State} (hbuf : Memory.wf s.buf) :
    bufBytes s.padFirst.buf = (pad s.acc (totalBits s.cnt s.len)).take 64 := by
  obtain ⟨total, bytes⟩ := State.pad_acc_layout s (totalBits s.cnt s.len)
  refine bufBytes_eq (List.length_take_le ..) fun i hi => ?_
  have offset : (BitVec.ofNat 6 i).toNat = i := by rw [BitVec.toNat_ofNat]; omega
  have marker : BitVec.ofNat 6 i = s.len ↔ i = s.len.toNat := by rw [← BitVec.toNat_inj, offset]
  rw [List.getElem?_take_of_lt hi, bytes i (by split <;> omega), readByte_padFirst hbuf, offset]
  rcases lt_trichotomy i s.len.toNat with tail | mark | after
  · rw [if_pos tail, if_pos tail]
  · rw [if_neg (by omega), if_pos mark, if_neg (by omega), if_pos (marker.mpr mark)]
  have notMark : BitVec.ofNat 6 i ≠ s.len := fun e => after.ne' (marker.mp e)
  rw [if_neg after.not_gt, if_neg after.ne', if_neg after.not_gt, if_neg notMark]
  by_cases fits : s.len.toNat ≤ 55
  · by_cases field : 56 ≤ i
    · rw [if_pos fits, if_neg (by omega), if_pos ⟨fits, field⟩]
    · rw [if_pos fits, if_pos (by omega), if_neg (by omega)]
  · rw [if_neg fits, if_pos (by omega), if_neg (by omega)]

/-- R103, R105: the second tail block. -/
theorem bufBytes_secondTail {s : State} {m : Memory} (hm : Memory.wf m) (hlen : 56 ≤ s.len.toNat) :
    bufBytes (memWrite8 (zeroFill m 0 56) 56 (totalBits s.cnt s.len)) = (pad s.acc (totalBits s.cnt s.len)).drop 64 := by
  obtain ⟨total, bytes⟩ := State.pad_acc_layout s (totalBits s.cnt s.len)
  have short : ¬ s.len.toNat ≤ 55 := by omega
  simp only [if_neg short] at total bytes
  refine bufBytes_eq (by rw [List.length_drop, total]) fun i hi => ?_
  have offset : (BitVec.ofNat 6 i).toNat = i := by rw [BitVec.toNat_ofNat]; omega
  rw [List.getElem?_drop, bytes (64 + i) (by omega), readByte_secondTail hm, offset, if_neg (by omega), if_neg (by omega)]
  by_cases field : 56 ≤ i
  · have place : 64 + i - (128 - 8) = i - 56 := by omega
    rw [if_pos field, if_neg (by omega), place]
  · rw [if_neg field, if_pos (by omega)]

/-- Settles O39, from the two tail blocks. -/
theorem bufferHoldsThePaddingBlocks : Obligations.BufferHoldsThePaddingBlocks := by
  refine fun s t hbuf => ⟨fun hexec => ?_, fun hexec hlen => ?_⟩
  · obtain rfl : s.padFirst = t := Host.Outcome.next.inj hexec
    exact bufBytes_padFirst hbuf
  · have ht : t.buf = memWrite8 (zeroFill s.buf 0 56) 56 (totalBits s.cnt s.len) := by
      rw [← Host.Outcome.next.inj ((execPad2_eq s).symm.trans hexec)]
    rw [ht, bufBytes_secondTail hbuf hlen]

end Sys2Proof.Machine
end

section
/-! The command level (43_digest_engine.md R113): what a stream leaves in the context, byte by byte, and the digests that follow
(R117, R121, R124, R127, R128). -/

namespace Sys2Proof.Machine

/-! ## The whole blocks of a stream -/

/-- R124: the blocks of a sequence are not changed by what comes after them. -/
theorem blocks_append {k : Nat} {s : List Byte} (hk : 64 * k ≤ s.length) (r : List Byte) : blocks k (s ++ r) = blocks k s := by
  refine List.map_congr_left fun i hi => ?_
  have inside : 64 * i + 64 ≤ s.length := by
    have := List.mem_range.mp hi
    omega
  rw [List.drop_append_of_le_length (by omega), List.take_append_of_le_length (by rw [List.length_drop]; omega)]

theorem blocks_succ (k : Nat) (s : List Byte) : blocks (k + 1) s = blocks k s ++ [(s.drop (64 * k)).take 64] := by
  simp [blocks, List.range_succ]

@[simp] theorem compressAll_nil (h : Quad) : compressAll [] h = h := rfl

/-- R113: a byte that does not fill a block compresses nothing. -/
theorem compressAll_push {s : List Byte} (hs : s.length % 64 ≠ 63) (b : Byte) (h : Quad) :
    compressAll (s ++ [b]) h = compressAll s h := by
  have same : (s ++ [b]).length / 64 = s.length / 64 := by
    rw [List.length_append, List.length_singleton]
    omega
  rw [compressAll, compressAll, same, blocks_append (by omega)]

/-- R113: the byte that fills a block compresses that block, which is the accumulator with the byte. -/
theorem compressAll_pushLast {s : List Byte} (hs : s.length % 64 = 63) (b : Byte) (h : Quad) :
    compressAll (s ++ [b]) h = compress (s.drop (64 * (s.length / 64)) ++ [b]) (compressAll s h) := by
  have more : (s ++ [b]).length / 64 = s.length / 64 + 1 := by
    rw [List.length_append, List.length_singleton]
    omega
  have block : ((s ++ [b]).drop (64 * (s.length / 64))).take 64 = s.drop (64 * (s.length / 64)) ++ [b] := by
    rw [List.drop_append_of_le_length (by omega), List.take_of_length_le]
    rw [List.length_append, List.length_drop, List.length_singleton]
    omega
  rw [compressAll, more, blocks_succ, blocks_append (by omega), block, List.foldl_append]
  rfl

/-! ## The context of a stream -/

/-- R34, R127, R128: the context that the stream `s` leaves, from `ctx0`. -/
structure Idle.Carries (x : Idle) (s : List Byte) : Prop where
  h : x.h = compressAll s iv
  acc : x.acc = s.drop (64 * (s.length / 64))
  cnt : x.cnt = BitVec.ofNat 64 (64 * (s.length / 64))

section
variable {x : Idle} {s : List Byte}

theorem Idle.Carries.empty (hh : x.h = iv) (hacc : x.acc = []) (hcnt : x.cnt = 0) : x.Carries [] where
  h := hh
  acc := hacc
  cnt := hcnt

theorem Idle.Carries.acc_length (hx : x.Carries s) : x.acc.length = s.length % 64 := by
  rw [hx.acc, List.length_drop]
  omega

/-- R127: the counter and the accumulator together count the stream. -/
theorem Idle.Carries.count (hx : x.Carries s) : add64 x.cnt (BitVec.ofNat 64 x.acc.length) = BitVec.ofNat 64 s.length := by
  rw [hx.cnt, hx.acc_length, add64, ← BitVec.ofNat_add, Nat.div_add_mod]

/-- R104, R127: so the bit count is that of the stream. -/
theorem Idle.Carries.bitCount (hx : x.Carries s) :
    8 * add64 x.cnt (BitVec.ofNat 64 x.acc.length) = BitVec.ofNat 64 (8 * s.length) := by
  rw [hx.count, BitVec.ofNat_mul]
  rfl

/-- R110, R113: one byte more. -/
theorem Idle.Carries.push (hx : x.Carries s) (b : Byte) : (x.exec (.push b)).Carries (s ++ [b]) := by
  have hlen := hx.acc_length
  have total : (s ++ [b]).length = s.length + 1 := by rw [List.length_append, List.length_singleton]
  by_cases room : x.acc.length < 63
  · have same : (s.length + 1) / 64 = s.length / 64 := by omega
    simp only [Idle.exec, if_pos room]
    refine ⟨?_, ?_, ?_⟩
    · rw [hx.h, compressAll_push (by omega)]
    · rw [hx.acc, total, same, List.drop_append_of_le_length (by omega)]
    · rw [hx.cnt, total, same]
  · have more : (s.length + 1) / 64 = s.length / 64 + 1 := by omega
    simp only [Idle.exec, if_neg room]
    refine ⟨?_, ?_, ?_⟩
    · rw [hx.h, hx.acc, compressAll_pushLast (by omega)]
    · rw [List.drop_of_length_le (by omega)]
    · rw [hx.cnt, total, more, Nat.mul_add, BitVec.ofNat_add]
      rfl

/-- R111, R112, R124: `FINAL` delivers the digest of the stream. -/
theorem Idle.Carries.final (hx : x.Carries s) : x.exec .final = ⟨iv, [], 0, vec128 (md5 s), true⟩ := by
  simp only [Idle.exec, md5]
  rw [hx.bitCount, hx.h, hx.acc]

end

/-! ## Command sequences -/

@[simp] theorem Idle.run_nil (x : Idle) : x.run [] = x := rfl

theorem Idle.run_append (x : Idle) (cs ds : List Command) : x.run (cs ++ ds) = (x.run cs).run ds :=
  List.foldl_append

@[simp] theorem Idle.run_singleton (x : Idle) (c : Command) : x.run [c] = x.exec c := rfl

/-- 00_scope.md section 6: what one more command does to the stream in progress. -/
def extendStream (s : List Byte) : Command → List Byte
  | .nop => s
  | .push b => s ++ [b]
  | .final => []
  | .init => []

theorem openStream_snoc (cs : List Command) (c : Command) : openStream (cs ++ [c]) = extendStream (openStream cs) c := by
  rw [openStream, List.foldl_append]
  cases c <;> rfl

theorem openStream_pushes (s : List Byte) : openStream (s.map .push) = s := by
  induction s using List.reverseRecOn with
  | nil => rfl
  | append_singleton s b ih => rw [List.map_append, List.map_singleton, openStream_snoc, ih, extendStream]

/-- R113: each command keeps the context in step with the stream. -/
theorem Idle.Carries.exec {x : Idle} {s : List Byte} (hx : x.Carries s) (c : Command) : (x.exec c).Carries (extendStream s c) := by
  cases c with
  | nop => exact hx
  | push b => exact hx.push b
  | final => exact .empty rfl rfl rfl
  | init => exact .empty rfl rfl rfl

/-- R124: from `ctx0` the context is at every point that of the stream in progress. -/
theorem Idle.Carries.run {x : Idle} (hx : x.Carries []) (cs : List Command) : (x.run cs).Carries (openStream cs) := by
  induction cs using List.reverseRecOn with
  | nil => exact hx
  | append_singleton cs c ih =>
    rw [Idle.run_append, openStream_snoc]
    exact ih.exec c

theorem Idle.Carries.pushes {x : Idle} (hx : x.Carries []) (s : List Byte) : (x.run (s.map .push)).Carries s := by
  simpa only [openStream_pushes] using hx.run (s.map .push)

/-- R124: a stream pushed from `ctx0` and finalized. -/
theorem Idle.Carries.run_pushes_final {x : Idle} (hx : x.Carries []) (s : List Byte) :
    x.run (s.map .push ++ [.final]) = ⟨iv, [], 0, vec128 (md5 s), true⟩ := by
  rw [Idle.run_append, Idle.run_singleton, (hx.pushes s).final]

/-- Settles O47: the pushes leave the context of the sequence, and `FINAL` its digest. -/
theorem pushesAndFinalComputeMd5 : Obligations.PushesAndFinalComputeMd5 := by
  intro x s hh hacc hcnt
  rw [(Idle.Carries.empty hh hacc hcnt).run_pushes_final s]
  exact ⟨rfl, rfl⟩

/-- R109: `INIT` gives `ctx0` from any context. -/
theorem Idle.carries_exec_init (x : Idle) : (x.exec .init).Carries [] := .empty rfl rfl rfl

theorem Idle.run_init_pushes_final (x : Idle) (s : List Byte) :
    x.run ([.init] ++ s.map .push ++ [.final]) = ⟨iv, [], 0, vec128 (md5 s), true⟩ := by
  rw [List.append_assoc, Idle.run_append, Idle.run_singleton, x.carries_exec_init.run_pushes_final]

/-- R115: updates are pushes, however the sequence is split. -/
theorem expand_updates (chunks : List (List Byte)) :
    (chunks.flatMap fun c => (LibCall.update c).expand) = chunks.flatten.map .push := by
  simp only [LibCall.expand, List.map_flatten, List.flatMap_def]

/-- Settles O48: both expand to `INIT`, the same pushes and `FINAL`. -/
theorem calculateIsMd5HoweverSplit : Obligations.CalculateIsMd5HoweverSplit := by
  intro x chunks
  have digest := congrArg Idle.dig (x.run_init_pushes_final chunks.flatten)
  refine ⟨digest, ?_⟩
  rw [expand_updates]
  exact digest

/-- Settles O49: the context of the sequence, and the count it carries. -/
theorem fixedBufferEqualsTheGrowableAccumulator : Obligations.FixedBufferEqualsTheGrowableAccumulator := by
  intro x s hh hacc hcnt y
  have hy : y.Carries s := (Idle.Carries.empty hh hacc hcnt).pushes s
  exact ⟨hy.acc, hy.cnt, hy.h, hy.bitCount⟩

end Sys2Proof.Machine
end

section
/-! The simulation between the machine and the command level: what the operation in progress will leave, read off every state, busy
or idle. No busy step moves it, and an accepted command moves it as R113 says; at an idle point it is what the host sees. -/

namespace Sys2Proof.Machine

/-! ## The outcome of the operation in progress -/

/-- R93: the working registers when the rounds still due are done. -/
def State.roundsLeft (s : State) : Quad :=
  (List.range' s.j.toNat (64 - s.j.toNat)).foldl (fun w j => md5Round (BitVec.ofNat 6 j) w (msgWord s.buf)) s.w

/-- R103: the buffer that `PAD2` leaves. -/
def State.secondTail (s : State) : Memory := memWrite8 (zeroFill s.buf 0 56) 56 (totalBits s.cnt s.len)

/-- R112: what `EMIT` leaves of the chaining value. -/
def delivered (h : Quad) : Idle := ⟨iv, [], 0, vec128 (ser h), true⟩

/-- R107: what is left when the add-back of `w` and everything after it is done. -/
def State.folded (s : State) (w : Quad) : Idle :=
  match s.fin with
  | .data => { s.view with h := addQuad s.h w, cnt := add64 s.cnt 64 }
  | .tailMore => delivered (compress (bufBytes s.secondTail) (addQuad s.h w))
  | .tailLast => delivered (addQuad s.h w)

/-- R107, R113: the command-level view of the next idle state. -/
def State.outcome (s : State) : Idle :=
  match s.ph with
  | .idle => s.view
  | .round => s.folded s.roundsLeft
  | .fold => s.folded s.w
  | .pad2 => delivered (compress (bufBytes s.secondTail) s.h)
  | .emit => delivered s.h

theorem State.outcome_of_idle {s : State} (h : s.ph = .idle) : s.outcome = s.view := by
  rw [State.outcome, h]

@[simp] theorem State.acc_nextPins (s : State) : s.nextPins.acc = s.acc := by
  simp only [State.acc, State.nextPins_len, State.nextPins_buf]

@[simp] theorem State.view_nextPins (s : State) : s.nextPins.view = s.view := by
  simp [State.view]

/-- The outcome is the engine's alone. -/
@[simp] theorem State.outcome_nextPins (s : State) : s.nextPins.outcome = s.outcome := by
  simp [State.outcome, State.folded, State.roundsLeft, State.secondTail]

/-! ## The rounds -/

/-- One round less is due after a round. -/
theorem State.roundsLeft_eq (s : State) (ph : Phase) :
    s.roundsLeft =
      if s.j = 63 then md5Round s.j s.w (msgWord s.buf)
      else State.roundsLeft { s with w := md5Round s.j s.w (msgWord s.buf), j := s.j + 1, ph := ph } := by
  have self : BitVec.ofNat 6 s.j.toNat = s.j := by simp
  have first : 64 - s.j.toNat = (63 - s.j.toNat) + 1 := by omega
  rw [State.roundsLeft, first, List.range'_succ, List.foldl_cons, self]
  split
  next last =>
    have noMore : 63 - s.j.toNat = 0 := by rw [last]; rfl
    rw [noMore]
    rfl
  next last =>
    have index : s.j.toNat ≠ 63 := fun e => last (BitVec.eq_of_toNat_eq e)
    have next : (s.j + 1).toNat = s.j.toNat + 1 := by rw [roundIndex_succ, BitVec.toNat_ofNat]; omega
    have rest : 63 - s.j.toNat = 64 - (s.j.toNat + 1) := by omega
    simp only [State.roundsLeft, next, rest]

/-- R93: all 64 rounds are due after `START`, and with the add-back they are `compress`. -/
theorem State.addQuad_roundsLeft {s : State} (hj : s.j = 0) (hw : s.w = s.h) :
    addQuad s.h s.roundsLeft = compress (bufBytes s.buf) s.h := by
  rw [compress_bufBytes, State.roundsLeft, hj, hw, rounds, List.range_eq_range']
  rfl

/-- What a state at round 0 of a block will leave. -/
theorem State.outcome_of_start {s : State} (hph : s.ph = .round) (hj : s.j = 0) (hw : s.w = s.h) :
    s.outcome =
      match s.fin with
      | .data => { s.view with h := compress (bufBytes s.buf) s.h, cnt := add64 s.cnt 64 }
      | .tailMore => delivered (compress (bufBytes s.secondTail) (compress (bufBytes s.buf) s.h))
      | .tailLast => delivered (compress (bufBytes s.buf) s.h) := by
  rw [State.outcome, hph]
  simp only [State.folded, State.addQuad_roundsLeft hj hw]

/-! ## The busy steps -/

/-- No busy step moves the outcome. -/
theorem State.Edge.outcome_of_busy {s u : State} (hu : s.Edge u) (hrst : s.pins.rst = false) (hbusy : s.ph ≠ .idle) :
    u.outcome = s.outcome := by
  cases hu with
  | reset h => rw [hrst] at h; cases h
  | round _ hph =>
    rw [State.outcome, State.outcome, hph, State.roundsLeft_eq s (if s.j = 63 then .fold else .round)]
    by_cases last : s.j = 63
    · simp only [if_pos last]
      rfl
    · simp only [if_neg last]
      rfl
  | fold _ hph =>
    rw [State.outcome, State.outcome, hph]
    cases hfin : s.fin <;> simp [State.folded, hfin, State.view, State.acc, State.secondTail]
  | pad2 _ hph =>
    rw [State.outcome_of_start rfl rfl rfl, State.outcome, hph]
    simp only [State.secondTail]
  | emit _ hph =>
    rw [State.outcome_of_idle rfl, State.outcome, hph]
    simp only [State.view, State.acc_of_empty, delivered]
  | _ _ hph => exact absurd hph hbusy

/-! ## The accepted commands -/

/-- R110: the byte written at `LEN` is the accumulator's next. -/
theorem State.acc_push {s : State} (hbuf : Memory.wf s.buf) (b : Byte) :
    ((List.range (s.len.toNat + 1)).map fun a => readByte (writeByte s.buf s.len b) (BitVec.ofNat 6 a)) = s.acc ++ [b] := by
  have self : BitVec.ofNat 6 s.len.toNat = s.len := by simp
  rw [List.range_succ, List.map_append, List.map_singleton, self, readByte_writeByte _ _ _ _ hbuf, if_pos rfl, State.acc]
  congr 1
  refine List.map_congr_left fun a ha => ?_
  have below : a < s.len.toNat := List.mem_range.mp ha
  have other : BitVec.ofNat 6 a ≠ s.len := fun e => by
    have := congrArg BitVec.toNat e
    rw [BitVec.toNat_ofNat] at this
    omega
  rw [readByte_writeByte _ _ _ _ hbuf, if_neg other]

/-- R110: before the block is full the accumulator grows by the byte. -/
theorem State.acc_of_push {s u : State} (hs : Memory.wf s.buf) (hlen : s.len ≠ 63) (b : Byte)
    (hbuf : u.buf = writeByte s.buf s.len b) (hnext : u.len = s.len + 1) : u.acc = s.acc ++ [b] := by
  have below : s.len.toNat ≠ 63 := fun e => hlen (BitVec.eq_of_toNat_eq e)
  have next : (s.len + 1).toNat = s.len.toNat + 1 := by rw [roundIndex_succ, BitVec.toNat_ofNat]; omega
  rw [← State.acc_push hs b, State.acc, hnext, next, hbuf]

/-- R104: the bit count as the command level forms it. -/
theorem State.totalBits_view (s : State) :
    8 * add64 s.view.cnt (BitVec.ofNat 64 s.view.acc.length) = totalBits s.cnt s.len := by
  rw [totalBits, State.view, State.acc_length, BitVec.ofNat_toNat]

/-- R113: two blocks are compressed one after the other. -/
theorem compressAll_two_blocks {x : List Byte} (hx : x.length = 128) (h : Quad) :
    compressAll x h = compress (x.drop 64) (compress (x.take 64) h) := by
  have two : x.length / 64 = 2 := by rw [hx]
  have second : (x.drop 64).take 64 = x.drop 64 := List.take_of_length_le (by rw [List.length_drop, hx])
  rw [compressAll, two, blocks_succ, blocks_succ]
  simp [blocks, second]

/-- R102, R103, R113: the tail blocks that `FINAL` sets going are the blocks of the padded accumulator. -/
theorem State.outcome_padFirst {s : State} (hbuf : Memory.wf s.buf) :
    s.padFirst.outcome = delivered (compressAll (pad s.acc (totalBits s.cnt s.len)) s.h) := by
  have first := bufBytes_padFirst hbuf
  obtain ⟨total, -⟩ := State.pad_acc_layout s (totalBits s.cnt s.len)
  rw [State.outcome_of_start (State.padFirst_ph s) (State.padFirst_j s) (by simp), State.padFirst_fin, State.padFirst_h]
  by_cases fits : s.len.toNat ≤ 55
  · rw [if_pos fits] at total ⊢
    have whole : (pad s.acc (totalBits s.cnt s.len)).take 64 = pad s.acc (totalBits s.cnt s.len) :=
      List.take_of_length_le total.le
    simp only
    rw [compressAll_block total, first, whole]
  · rw [if_neg fits] at total ⊢
    have second := bufBytes_secondTail (State.padFirst_wf s hbuf) (show 56 ≤ s.len.toNat by omega)
    simp only [State.secondTail, State.padFirst_cnt, State.padFirst_len]
    rw [compressAll_two_blocks total, first, second]

/-- R113: a step of the idle engine moves the outcome as the accepted command says. -/
theorem State.Edge.outcome_of_idle {s u : State} (hu : s.Edge u) (hbuf : Memory.wf s.buf) (hrst : s.pins.rst = false)
    (hidle : s.ph = .idle) : u.outcome = s.view.run s.accepted.toList := by
  have length : s.view.acc.length = s.len.toNat := State.acc_length s
  cases hu with
  | reset h => rw [hrst] at h; cases h
  | stay _ _ hacc =>
    rw [State.outcome_of_idle hidle]
    rcases hacc with hacc | hacc <;> rw [hacc] <;> rfl
  | init _ _ hacc =>
    rw [State.outcome_of_idle (by exact hidle), hacc, Option.toList_some, Idle.run_singleton, Idle.exec]
    simp only [State.view, State.acc_of_empty]
  | push _ _ b hacc hlen =>
    have below : s.len.toNat < 63 := by
      have : s.len.toNat ≠ 63 := fun e => hlen (BitVec.eq_of_toNat_eq e)
      omega
    rw [State.outcome_of_idle (by exact hidle), hacc, Option.toList_some, Idle.run_singleton, Idle.exec, if_pos (by omega)]
    simp only [State.view]
    congr 1
    exact State.acc_of_push hbuf hlen b rfl rfl
  | pushLast _ _ b hacc hlen =>
    have full : s.len.toNat = 63 := by rw [hlen]; rfl
    have block : bufBytes (writeByte s.buf s.len b) = s.acc ++ [b] := by rw [← State.acc_push hbuf b, full]; rfl
    rw [State.outcome_of_start rfl rfl rfl, hacc, Option.toList_some, Idle.run_singleton, Idle.exec, if_neg (by omega)]
    simp only [State.view, State.acc_of_empty, block]
  | final _ _ hacc =>
    rw [State.outcome_padFirst (s := s.clearValid) hbuf, hacc, Option.toList_some, Idle.run_singleton]
    simp only [Idle.exec, State.totalBits_view]
    rfl
  | round _ hph => rw [hidle] at hph; cases hph
  | fold _ hph => rw [hidle] at hph; cases hph
  | pad2 _ hph => rw [hidle] at hph; cases hph
  | emit _ hph => rw [hidle] at hph; cases hph

/-! ## Steps and runs -/

theorem step_buf_wf {s t : State} (hstep : step s = .next t) (hbuf : Memory.wf s.buf) : Memory.wf t.buf := by
  obtain ⟨u, rfl, hu⟩ := edge_of_step hstep
  simpa using hu.buf_wf hbuf

/-- One step of the machine is the accepted command, if any, at the command level. -/
theorem step_outcome {s t : State} (hstep : step s = .next t) (hbuf : Memory.wf s.buf) (hrst : s.pins.rst = false) :
    t.outcome = s.outcome.run s.accepted.toList := by
  obtain ⟨u, rfl, hu⟩ := edge_of_step hstep
  rw [State.outcome_nextPins]
  by_cases hidle : s.ph = .idle
  · rw [State.outcome_of_idle hidle]
    exact hu.outcome_of_idle hbuf hrst hidle
  · rw [State.accepted_of_busy hidle]
    exact hu.outcome_of_busy hrst hidle

theorem acceptedIn_succ {s t : State} (hstep : step s = .next t) (n : Nat) :
    acceptedIn (n + 1) s = s.accepted.toList ++ acceptedIn n t := by
  rw [acceptedIn, hstep]

/-- R51: a run of the machine is the run of the accepted commands at the command level. -/
theorem run_outcome {n : Nat} {s t : State} (hbuf : Memory.wf s.buf) (hr : s.unreset n) (hrun : run n s = .next t) :
    t.outcome = s.outcome.run (acceptedIn n s) := by
  induction n generalizing s with
  | zero =>
    obtain rfl : s = t := Host.Outcome.next.inj hrun
    rfl
  | succ n ih =>
    obtain ⟨v, hstep⟩ := everyStepAnswersANextState s
    rw [run_succ n s v hstep] at hrun
    rw [ih (step_buf_wf hstep hbuf) (State.unreset_step hr hstep) hrun, step_outcome hstep hbuf (State.unreset_head hr),
      acceptedIn_succ hstep, Idle.run_append]

/-- Settles O44: at an idle point the outcome is the view. -/
theorem idleViewIsTheFoldOfAcceptedCommands : Obligations.IdleViewIsTheFoldOfAcceptedCommands := by
  intro n s t hinv hs hr hrun ht
  rw [← State.outcome_of_idle hs, ← State.outcome_of_idle ht]
  exact run_outcome hinv.bufWf hr hrun

/-- R58: nothing is accepted before the engine is idle again. -/
theorem acceptedIn_of_busy {n : Nat} {s : State} (hr : s.unreset n) (hn : n ≤ s.remaining) : acceptedIn n s = [] := by
  induction n generalizing s with
  | zero => rfl
  | succ n ih =>
    obtain ⟨t, hstep⟩ := everyStepAnswersANextState s
    have hbusy : s.ph ≠ .idle := fun h => by rw [State.remaining_of_idle h] at hn; omega
    have hleft := step_remaining hstep (State.unreset_head hr) hbusy
    rw [acceptedIn_succ hstep, State.accepted_of_busy hbusy, ih (State.unreset_step hr hstep) (by omega)]
    rfl

/-- R113: the run of one accepted command accepts no other. -/
theorem acceptedIn_of_accepted {c : Command} {n : Nat} {s : State} (hacc : s.accepted = some c) (hr : s.unreset (n + 1))
    (hn : n + 1 ≤ stepCount s.len c) : acceptedIn (n + 1) s = [c] := by
  obtain ⟨t, hstep⟩ := everyStepAnswersANextState s
  have hleft := step_remaining_of_accepted hstep hacc
  rw [acceptedIn_succ hstep, hacc, acceptedIn_of_busy (State.unreset_step hr hstep) (by omega)]
  rfl

/-- Settles O43: after the tabled count the engine is idle again, and its view is the outcome of the one accepted command. -/
theorem acceptedCommandRefinesTheCommandLevel : Obligations.AcceptedCommandRefinesTheCommandLevel := by
  intro s c hinv hoffer hr
  have hacc := State.accepted_of_offered hoffer
  obtain ⟨n, hn⟩ : ∃ n, stepCount s.len c = n + 1 := ⟨stepCount s.len c - 1, by have := stepCount_pos s.len c; omega⟩
  have within {k : Nat} (hk : k ≤ n + 1) : s.unreset k := State.unreset_mono hr (by have := stepCount_le s.len c; omega)
  obtain ⟨t, hrun, hleft⟩ := run_of_accepted hacc n.succ_pos hn.ge (within le_rfl)
  have ht : t.ph = .idle := t.remaining_eq_zero_iff.mp (by omega)
  refine ⟨n, t, hrun, ht, ?_, fun k hk => ?_⟩
  · have hview := idleViewIsTheFoldOfAcceptedCommands (n + 1) s t hinv (State.accepted_ph hacc) (within le_rfl) hrun ht
    rw [hview, acceptedIn_of_accepted hacc (within le_rfl) hn.ge, Idle.run_singleton]
  · obtain ⟨u, hrunk, hleftk⟩ := run_of_accepted hacc k.succ_pos (by omega) (within (by omega))
    exact ⟨u, hrunk, fun hu => by rw [State.remaining_of_idle hu] at hleftk; omega⟩

/-! ## The digests of a run -/

/-- R26, R124: a digest is valid only while nothing but `NOP` follows the `FINAL` that delivered it. -/
theorem Idle.Carries.run_valid {x : Idle} (hx : x.Carries []) (hdv : x.dv = false) (cs : List Command)
    (hvalid : (x.run cs).dv = true) : ∃ pre k,
      cs = pre ++ [.final] ++ List.replicate k .nop ∧ (x.run cs).dig = vec128 (md5 (openStream pre)) := by
  induction cs using List.reverseRecOn with
  | nil => rw [Idle.run_nil, hdv] at hvalid; cases hvalid
  | append_singleton cs c ih =>
    rw [Idle.run_append, Idle.run_singleton] at hvalid ⊢
    cases c with
    | nop =>
      obtain ⟨pre, k, hcs, hdig⟩ := ih hvalid
      exact ⟨pre, k + 1, by rw [List.replicate_succ', ← List.append_assoc, ← hcs], hdig⟩
    | push b =>
      simp only [Idle.exec] at hvalid
      split at hvalid <;> cases hvalid
    | final => exact ⟨cs, 0, by simp, by rw [(hx.run cs).final]⟩
    | init => cases hvalid

/-- Settles O51: at the command level the context is that of the stream in progress, and the machine's view is the command level's. -/
theorem everyValidDigestIsTheMd5OfItsStream : Obligations.EveryValidDigestIsTheMd5OfItsStream := by
  intro n s t hinv hs hfresh hdv hr hrun ht cs stream
  obtain ⟨hh, hlen, hcnt⟩ := hfresh
  have start : s.view.Carries [] := .empty hh (State.acc_of_empty hlen) hcnt
  have hview : t.view = s.view.run cs := idleViewIsTheFoldOfAcceptedCommands n s t hinv hs hr hrun ht
  have context : t.view.Carries stream := hview ▸ start.run cs
  refine ⟨context.h, context.acc, ?_, fun hvalid => ?_⟩
  · have count := context.count
    rwa [State.view, State.acc_length, BitVec.ofNat_toNat] at count
  · have valid : (s.view.run cs).dv = true := by rw [← hview]; exact hvalid
    obtain ⟨pre, k, hcs, hdig⟩ := start.run_valid hdv cs valid
    exact ⟨pre, k, hcs, by rw [← hdig, ← hview]; rfl⟩

end Sys2Proof.Machine
end

section
/-! The registers outside the stream context are dead in an idle engine (10_state.md R34): two engines with the same context and the
same host go on alike, whatever those registers hold. -/

namespace Sys2Proof.Machine

/-- R34: the same phase, stream context and host; in a busy engine, which works on them, the same working registers and buffer too.
`DIG` and `DV` are free. -/
structure State.SameContext (s s' : State) : Prop where
  buf_wf : Memory.wf s.buf
  buf_wf' : Memory.wf s'.buf
  ph : s.ph = s'.ph
  h : s.h = s'.h
  len : s.len = s'.len
  cnt : s.cnt = s'.cnt
  acc : s.acc = s'.acc
  pins : s.pins = s'.pins
  script : s.script = s'.script
  busy : s.ph ≠ .idle → s.w = s'.w ∧ s.j = s'.j ∧ s.fin = s'.fin ∧ s.buf = s'.buf

namespace State.SameContext

variable {s s' : State}

/-- The same edge for both hosts. -/
theorem nextPins (h : s.SameContext s') : s.nextPins.SameContext s'.nextPins where
  buf_wf := by simpa using h.buf_wf
  buf_wf' := by simpa using h.buf_wf'
  ph := by simpa using h.ph
  h := by simpa using h.h
  len := by simpa using h.len
  cnt := by simpa using h.cnt
  acc := by simpa using h.acc
  pins := by simp [h.script]
  script := by simp [h.script]
  busy := by simpa using h.busy

theorem accepted (h : s.SameContext s') : s.accepted = s'.accepted := by
  rw [State.accepted, State.accepted, h.ph, h.pins]

theorem ready (h : s.SameContext s') : s.ready = s'.ready := by
  rw [State.ready, State.ready, h.ph]

theorem snap (h : s.SameContext s') : s.snap = s'.snap := by
  rw [State.snap, State.snap, h.h]

/-- The live bytes are the same. -/
theorem readByte (h : s.SameContext s') {a : Offset} (ha : a.toNat < s.len.toNat) :
    Machine.readByte s.buf a = Machine.readByte s'.buf a := by
  have left := s.getElem?_acc ha
  have right := s'.getElem?_acc (h.len ▸ ha)
  rw [← h.acc, left] at right
  simpa using right

/-- R44: a full block overwrites every dead byte. -/
theorem writeByte_last (h : s.SameContext s') (hlen : s.len = 63) (b : Byte) :
    writeByte s.buf s.len b = writeByte s'.buf s'.len b := by
  refine buffer_ext _ _ (writeByte_wf _ _ _ h.buf_wf) (writeByte_wf _ _ _ h.buf_wf') fun a => ?_
  rw [readByte_writeByte _ _ _ _ h.buf_wf, readByte_writeByte _ _ _ _ h.buf_wf', ← h.len]
  by_cases last : a = s.len
  · rw [if_pos last, if_pos last]
  · have below : a.toNat < s.len.toNat := by
      have : a.toNat ≠ s.len.toNat := fun e => last (BitVec.eq_of_toNat_eq e)
      have : s.len.toNat = 63 := by rw [hlen]; rfl
      omega
    rw [if_neg last, if_neg last, h.readByte below]

/-- R102: so does the first tail block. -/
theorem padFirst_buf (h : s.SameContext s') : s.padFirst.buf = s'.padFirst.buf := by
  refine buffer_ext _ _ (State.padFirst_wf s h.buf_wf) (State.padFirst_wf s' h.buf_wf') fun a => ?_
  rw [readByte_padFirst h.buf_wf, readByte_padFirst h.buf_wf', ← h.len, ← h.cnt]
  by_cases tail : a.toNat < s.len.toNat
  · rw [if_pos tail, if_pos tail, h.readByte tail]
  · rw [if_neg tail, if_neg tail]

/-- Two idle engines. -/
theorem of_idle (hbuf : Memory.wf s.buf) (hbuf' : Memory.wf s'.buf) (hs : s.ph = .idle) (hs' : s'.ph = .idle)
    (hh : s.h = s'.h) (hacc : s.acc = s'.acc) (hcnt : s.cnt = s'.cnt) (hpins : s.pins = s'.pins)
    (hscript : s.script = s'.script) : s.SameContext s' where
  buf_wf := hbuf
  buf_wf' := hbuf'
  ph := hs.trans hs'.symm
  h := hh
  len := by
    have := congrArg List.length hacc
    rw [State.acc_length, State.acc_length] at this
    exact BitVec.eq_of_toNat_eq this
  cnt := hcnt
  acc := hacc
  pins := hpins
  script := hscript
  busy := fun h => absurd hs h

/-- Two engines that differ in `DIG` and `DV` at most. -/
theorem of_registers (hbuf : Memory.wf s.buf) (hph : s.ph = s'.ph) (hh : s.h = s'.h) (hw : s.w = s'.w)
    (hbufs : s.buf = s'.buf) (hlen : s.len = s'.len) (hcnt : s.cnt = s'.cnt) (hj : s.j = s'.j) (hfin : s.fin = s'.fin)
    (hpins : s.pins = s'.pins) (hscript : s.script = s'.script) : s.SameContext s' where
  buf_wf := hbuf
  buf_wf' := hbufs ▸ hbuf
  ph := hph
  h := hh
  len := hlen
  cnt := hcnt
  acc := by rw [State.acc, State.acc, hlen, hbufs]
  pins := hpins
  script := hscript
  busy := fun _ => ⟨hw, hj, hfin, hbufs⟩

/-- R19, R20, R23, R24: in a busy engine nothing but `DIG` and `DV` is free. -/
theorem eq_of_busy (h : s.SameContext s') (hbusy : s.ph ≠ .idle) : s' = { s with dig := s'.dig, dv := s'.dv } := by
  obtain ⟨hw, hj, hfin, hbuf⟩ := h.busy hbusy
  ext1
  case h => exact h.h.symm
  case w => exact hw.symm
  case buf => exact hbuf.symm
  case len => exact h.len.symm
  case cnt => exact h.cnt.symm
  case ph => exact h.ph.symm
  case j => exact hj.symm
  case fin => exact hfin.symm
  case dig => rfl
  case dv => rfl
  case pins => exact h.pins.symm
  case script => exact h.script.symm

end State.SameContext

/-! ## Steps -/

/-- R58: the step that accepts a command, from the command it accepts. -/
theorem step_of_accepted {c : Command} {s u : State} (hacc : s.accepted = some c) (hexec : exec c.instr s = .next u) :
    step s = .next u.nextPins := by
  refine step_of_offered (c := c) ⟨State.accepted_ph hacc, State.accepted_rst hacc, ?_, ?_⟩ hexec
  · by_contra hvalid
    simp [State.accepted, hvalid] at hacc
  · simp only [State.accepted] at hacc
    split at hacc <;> cases hacc
    rfl

/-- R58: the step of an idle engine to which nothing is presented. -/
theorem step_of_quiet {s : State} (hrst : s.pins.rst = false) (hph : s.ph = .idle) (hacc : s.accepted = none) :
    step s = .next s.nextPins := by
  have hquiet : s.pins.cmdValid = false := by simpa [State.accepted, hrst, hph] using hacc
  exact step_of_exec hrst (by rw [State.select, hph]; exact exec_idle_of_quiet hquiet)

/-- A busy step writes neither `DIG` nor `DV` into another register. -/
theorem State.Edge.sameContext_of_busy {s u : State} (hu : s.Edge u) (hbuf : Memory.wf s.buf) (hrst : s.pins.rst = false)
    (hbusy : s.ph ≠ .idle) (d : BitVec 128) (v : Bool) :
    ∃ u', step { s with dig := d, dv := v } = .next u'.nextPins ∧ u.SameContext u' := by
  have hwf := hu.buf_wf hbuf
  cases hu with
  | reset h => rw [hrst] at h; cases h
  | round _ hph => exact ⟨_, step_of_round hrst hph, .of_registers hwf rfl rfl rfl rfl rfl rfl rfl rfl rfl rfl⟩
  | fold _ hph => exact ⟨_, step_of_fold hrst hph, .of_registers hwf rfl rfl rfl rfl rfl rfl rfl rfl rfl rfl⟩
  | pad2 _ hph => exact ⟨_, step_of_pad2 hrst hph, .of_registers hwf rfl rfl rfl rfl rfl rfl rfl rfl rfl rfl⟩
  | emit _ hph => exact ⟨_, step_of_emit hrst hph, .of_registers hwf rfl rfl rfl rfl rfl rfl rfl rfl rfl rfl⟩
  | _ _ hph => exact absurd hph hbusy

/-- The step of an idle engine reads the stream context only. -/
theorem State.Edge.sameContext_of_idle {s s' u : State} (hu : s.Edge u) (h : s.SameContext s') (hrst : s.pins.rst = false)
    (hidle : s.ph = .idle) : ∃ u', step s' = .next u'.nextPins ∧ u.SameContext u' := by
  have hwf := hu.buf_wf h.buf_wf
  have hidle' : s'.ph = .idle := h.ph ▸ hidle
  have hrst' : s'.pins.rst = false := h.pins ▸ hrst
  cases hu with
  | reset hr => rw [hrst] at hr; cases hr
  | stay _ _ hacc =>
    rw [h.accepted] at hacc
    rcases hacc with hacc | hacc
    · exact ⟨s', step_of_quiet hrst' hidle' hacc, h⟩
    · exact ⟨s', step_of_accepted hacc (exec_nop s'), h⟩
  | init _ _ hacc =>
    rw [h.accepted] at hacc
    refine ⟨_, step_of_accepted hacc (execInit_eq s'), .of_idle hwf ?_ hidle hidle' rfl ?_ rfl h.pins h.script⟩
    · dsimp only; exact zeroFill_wf _ _ _ h.buf_wf'
    · rw [State.acc_of_empty rfl, State.acc_of_empty rfl]
  | push _ _ b hacc hlen =>
    rw [h.accepted] at hacc
    have hexec := execPush_eq b s'
    have hlen' : s'.len ≠ 63 := h.len ▸ hlen
    rw [if_neg hlen'] at hexec
    refine ⟨_, step_of_accepted hacc hexec, .of_idle hwf ?_ hidle hidle' h.h ?_ h.cnt h.pins h.script⟩
    · exact writeByte_wf _ _ _ h.buf_wf'
    · rw [State.acc_of_push h.buf_wf hlen b rfl rfl, h.acc]
      exact (State.acc_of_push h.buf_wf' hlen' b rfl rfl).symm
  | pushLast _ _ b hacc hlen =>
    rw [h.accepted] at hacc
    have hexec := execPush_eq b s'
    rw [if_pos (h.len ▸ hlen)] at hexec
    exact ⟨_, step_of_accepted hacc hexec,
      .of_registers hwf rfl h.h h.h (h.writeByte_last hlen b) rfl h.cnt rfl rfl h.pins h.script⟩
  | final _ _ hacc =>
    rw [h.accepted] at hacc
    refine ⟨s'.clearValid.padFirst, step_of_accepted hacc rfl, ?_⟩
    rw [State.clearValid_padFirst] at hwf
    rw [State.clearValid_padFirst, State.clearValid_padFirst]
    refine .of_registers hwf ?_ ?_ ?_ h.padFirst_buf ?_ ?_ ?_ ?_ ?_ ?_
    all_goals simp [h.h, h.len, h.cnt, h.pins, h.script]
  | round _ hph => rw [hidle] at hph; cases hph
  | fold _ hph => rw [hidle] at hph; cases hph
  | pad2 _ hph => rw [hidle] at hph; cases hph
  | emit _ hph => rw [hidle] at hph; cases hph

/-- R34: every step, a reset included, keeps the contexts the same. -/
theorem step_sameContext {s s' t t' : State} (h : s.SameContext s') (hstep : step s = .next t) (hstep' : step s' = .next t') :
    t.SameContext t' := by
  obtain ⟨u, rfl, hu⟩ := edge_of_step hstep
  suffices ∃ u', step s' = .next u'.nextPins ∧ u.SameContext u' by
    obtain ⟨u', hu', same⟩ := this
    obtain rfl := Host.Outcome.next.inj (hu'.symm.trans hstep')
    exact same.nextPins
  by_cases hrst : s.pins.rst = true
  · obtain rfl : u = s.resetEngine := hu.eq_resetEngine hrst
    exact ⟨s'.resetEngine, step_of_reset (h.pins ▸ hrst),
      .of_idle Memory.wf_nil Memory.wf_nil rfl rfl rfl rfl rfl h.pins h.script⟩
  have hrst : s.pins.rst = false := by simpa using hrst
  by_cases hidle : s.ph = .idle
  · exact hu.sameContext_of_idle h hrst hidle
  · rw [h.eq_of_busy hidle]
    exact hu.sameContext_of_busy h.buf_wf hrst hidle _ _

/-- R25, R26: what a step leaves in `DIG` and `DV` is the same when it was, and after an `EMIT` in any case. -/
theorem step_sameDigest {s s' t t' : State} (h : s.SameContext s') (hstep : step s = .next t) (hstep' : step s' = .next t')
    (hsame : (s.dig = s'.dig ∧ s.dv = s'.dv) ∨ (s.ph = .emit ∧ s.pins.rst = false)) : t.dig = t'.dig ∧ t.dv = t'.dv := by
  rw [digestRegisterIsWrittenOnlyByEmit s t hstep, digestRegisterIsWrittenOnlyByEmit s' t' hstep',
    digestValidIsSetByEmitOnly s t hstep, digestValidIsSetByEmitOnly s' t' hstep', ← h.pins, ← h.ph, ← h.h, ← h.accepted]
  rcases hsame with ⟨hdig, hdv⟩ | ⟨hph, hrst⟩
  · rw [hdig, hdv]
    exact ⟨rfl, rfl⟩
  · simp [hph, hrst]

/-! ## Runs -/

/-- R34: so every run keeps the contexts the same, and `DIG` and `DV` once they are. -/
theorem run_sameContext (n : Nat) {s s' : State} (h : s.SameContext s') :
    ∃ t t', run n s = .next t ∧ run n s' = .next t' ∧ t.SameContext t' ∧
      ((s.dig = s'.dig ∧ s.dv = s'.dv) ∨ (∃ k < n, ∃ u, run k s = .next u ∧ u.ph = .emit ∧ u.pins.rst = false) →
        t.dig = t'.dig ∧ t.dv = t'.dv) := by
  induction n generalizing s s' with
  | zero => exact ⟨s, s', rfl, rfl, h, fun hsame => hsame.resolve_right (by simp)⟩
  | succ n ih =>
    obtain ⟨v, hstep⟩ := everyStepAnswersANextState s
    obtain ⟨v', hstep'⟩ := everyStepAnswersANextState s'
    obtain ⟨t, t', hrun, hrun', same, digests⟩ := ih (step_sameContext h hstep hstep')
    refine ⟨t, t', (run_succ n s v hstep).trans hrun, (run_succ n s' v' hstep').trans hrun', same, fun hsame => digests ?_⟩
    rcases hsame with hsame | ⟨k, hk, u, hrunk, hemit⟩
    · exact .inl (step_sameDigest h hstep hstep' (.inl hsame))
    · cases k with
      | zero =>
        obtain rfl : s = u := Host.Outcome.next.inj hrunk
        exact .inl (step_sameDigest h hstep hstep' (.inr hemit))
      | succ k => exact .inr ⟨k, by omega, u, (run_succ k s v hstep).symm.trans hrunk, hemit⟩

/-- Settles O45: two idle engines with the same stream context go on with the same context, and the outputs follow. -/
theorem outputsDependOnTheStreamContextOnly : Obligations.OutputsDependOnTheStreamContextOnly := by
  intro s s' hbuf hbuf' hs hs' hh hacc hcnt hpins hscript n
  obtain ⟨t, t', hrun, hrun', same, digests⟩ :=
    run_sameContext n (.of_idle hbuf hbuf' hs hs' hh hacc hcnt hpins hscript)
  exact ⟨t, t', hrun, hrun', same.ready, same.snap, fun hemit => digests (.inr hemit)⟩

end Sys2Proof.Machine
end
